-- ==== Sys2Proof/Word.lean ====
section
/-!
DEFINITION. The words of the machine: bytes, 16-bit words, register numbers, and the widths they have (00_scope.md R4,
R5). Everything here is unsigned (R6).
-/
namespace Sys2Proof

/-- One byte: a general register, a timer, a memory byte, the literal `nn` (R4, R61). -/
abbrev Byte := BitVec 8

/-- Sixteen bits: `I`, `pc`, a stack entry, an instruction word (R4, R60). -/
abbrev Word := BitVec 16

/-- A 12-bit literal `nnn` (R61). -/
abbrev Addr := BitVec 12

/-- A 4-bit field of an instruction word (R5, R8). -/
abbrev Nibble := BitVec 4

/-- The number of a general register, 0 to 15 (R11), or of a key, 0 to 15 (R18). -/
abbrev RegIdx := Fin 16

/-- The number of `VF`, register 15 (R12). -/
abbrev regF : RegIdx := 15

end Sys2Proof
end

