-- ==== Sys2Proof/Machine/Flags.lean ====
section
/-!
DEFINITION. Every flag computation: what the seven flag-writing instructions put into `VF` (10_state.md R12). The eighth
condition, the collision of `Dxyn`, is computed with the drawing (Machine/Display.lean).
-/
namespace Sys2Proof.Machine

/-- The carry of an 8-bit sum: it is above 255 (R126). -/
def carryOut (a b : Byte) : Bool := 255 < a.toNat + b.toNat

/-- "No borrow" of `a - b`: `a ≥ b`, equal operands included (R127). -/
def noBorrow (a b : Byte) : Bool := b.toNat ≤ a.toNat

/-- The test of `8xy7`, as the spec writes it: 0 if `a > b`, else 1, for the result `b - a` (R129). -/
def noReverseBorrow (a b : Byte) : Bool := if a.toNat > b.toNat then false else true

/-- The bit a right shift by one drops: bit 0 (R128). -/
def lowBitOut (a : Byte) : Bool := a.getLsbD 0

/-- The bit a left shift by one drops: bit 7 (R130). -/
def highBitOut (a : Byte) : Bool := a.getLsbD 7

/-- The new index is above 0xFFF (R141). -/
def aboveAddr (i : Word) : Bool := 0xFFF < i.toNat

end Sys2Proof.Machine
end

