-- ==== Sys2Proof/Syntax.lean ====
section
/-!
DEFINITION. The instruction set as syntax: one constructor per row of spec/opcode_table.json (30_encoding.md R63), with
the operands its format carries (R61, R62). The type of an operand is its width, so no ill-formed operand can be built.
-/
namespace Sys2Proof

/-- The 34 instructions, in the order of R63. `x` and `y` are register numbers, `nn`, `nnn`, `n` literals. -/
inductive Instr where
  /-- `00E0`, clear the screen (R150). -/
  | cls
  /-- `00EE`, return (R100). -/
  | ret
  /-- `1nnn`, jump (R101). -/
  | jp (nnn : Addr)
  /-- `2nnn`, call subroutine (R102). -/
  | call (nnn : Addr)
  /-- `3xnn`, skip if `Vx = nn` (R103). -/
  | seImm (x : RegIdx) (nn : Byte)
  /-- `4xnn`, skip if `Vx ≠ nn` (R104). -/
  | sneImm (x : RegIdx) (nn : Byte)
  /-- `5xy0`, skip if `Vx = Vy` (R105). -/
  | seReg (x y : RegIdx)
  /-- `6xnn`, load literal (R120). -/
  | ldImm (x : RegIdx) (nn : Byte)
  /-- `7xnn`, add literal, no flag (R121). -/
  | addImm (x : RegIdx) (nn : Byte)
  /-- `8xy0`, copy register (R122). -/
  | ldReg (x y : RegIdx)
  /-- `8xy1`, bitwise or (R123). -/
  | orReg (x y : RegIdx)
  /-- `8xy2`, bitwise and (R124). -/
  | andReg (x y : RegIdx)
  /-- `8xy3`, bitwise exclusive or (R125). -/
  | xorReg (x y : RegIdx)
  /-- `8xy4`, add with carry out (R126). -/
  | addReg (x y : RegIdx)
  /-- `8xy5`, subtract (R127). -/
  | subReg (x y : RegIdx)
  /-- `8xy6`, shift right by one; `y` is carried and ignored (R128, R66). -/
  | shr (x y : RegIdx)
  /-- `8xy7`, reverse subtract (R129). -/
  | subnReg (x y : RegIdx)
  /-- `8xyE`, shift left by one; `y` is carried and ignored (R130, R66). -/
  | shl (x y : RegIdx)
  /-- `9xy0`, skip if `Vx ≠ Vy` (R106, R70). -/
  | sneReg (x y : RegIdx)
  /-- `Annn`, load index (R140). -/
  | ldI (nnn : Addr)
  /-- `Bnnn`, jump with offset `V0` (R107). -/
  | jpV0 (nnn : Addr)
  /-- `Cxnn`, masked random byte (R131). -/
  | rnd (x : RegIdx) (nn : Byte)
  /-- `Dxyn`, draw a sprite of `n` rows (R151). -/
  | drw (x y : RegIdx) (n : Nibble)
  /-- `Ex9E`, skip if the key `Vx` is down (R160). -/
  | skp (x : RegIdx)
  /-- `ExA1`, skip if the key `Vx` is up (R161). -/
  | sknp (x : RegIdx)
  /-- `Fx07`, read the delay timer (R162). -/
  | ldVxDT (x : RegIdx)
  /-- `Fx0A`, wait for a key (R163). -/
  | ldVxK (x : RegIdx)
  /-- `Fx15`, set the delay timer (R164). -/
  | ldDTVx (x : RegIdx)
  /-- `Fx18`, set the sound timer (R165). -/
  | ldSTVx (x : RegIdx)
  /-- `Fx1E`, add register to index, `VF` from the new index (R141). -/
  | addI (x : RegIdx)
  /-- `Fx29`, point `I` at a font glyph (R142). -/
  | ldF (x : RegIdx)
  /-- `Fx33`, store decimal digits (R143). -/
  | ldB (x : RegIdx)
  /-- `Fx55`, store registers `V0` to `Vx` (R144). -/
  | stRegs (x : RegIdx)
  /-- `Fx65`, load registers `V0` to `Vx` (R145). -/
  | ldRegs (x : RegIdx)
deriving DecidableEq, Repr

/-- One row of the opcode table: its number in R63, and the match and mask that select its words. -/
structure OpcodeRow where
  /-- The `#` column of R63, 1 to 34. -/
  num : Nat
  /-- The `Match` column. -/
  bits : Word
  /-- The `Mask` column. -/
  mask : Word
deriving DecidableEq, Repr

/-- Why the decoder gives no instruction. There is one reason: the word matches no row (R65). -/
inductive DecodeError where
  /-- The word `w` is unknown; the cycle raises `Fatal.UnknownInstruction(w)` for it (R82, R191). -/
  | unknownInstruction (w : Word)
deriving DecidableEq, Repr

end Sys2Proof
end

