-- ==== Sys2Proof/Decode.lean ====
section
/-!
DEFINITION. The fields of an instruction word, the opcode table as data, the decoder and the encoder (30_encoding.md).
The numeric assignment is the spec's own decision D1, from general knowledge of the family (log 3): it stands in this one
file, so that it can be replaced whole.
-/
namespace Sys2Proof

/-! ### Fields (R61) -/

/-- The high nibble, bits 15 to 12 (R61). -/
def opField (w : Word) : Nibble := w.extractLsb' 12 4

/-- The register number `x`, bits 11 to 8 (R61). -/
def xField (w : Word) : RegIdx := (w.extractLsb' 8 4).toFin

/-- The register number `y`, bits 7 to 4 (R61). -/
def yField (w : Word) : RegIdx := (w.extractLsb' 4 4).toFin

/-- The 4-bit literal or sub-opcode `n`, bits 3 to 0 (R61). -/
def nField (w : Word) : Nibble := w.extractLsb' 0 4

/-- The 8-bit literal or sub-opcode `nn`, bits 7 to 0 (R61). -/
def nnField (w : Word) : Byte := w.extractLsb' 0 8

/-- The 12-bit literal `nnn`, bits 11 to 0 (R61). -/
def nnnField (w : Word) : Addr := w.extractLsb' 0 12

/-- The word of two consecutive bytes, the first in the high half (R43, R60). -/
def wordOfBytes (hi lo : Byte) : Word := hi ++ lo

/-- The first byte of a word in memory: bits 15 to 8 (R43). -/
def hiByte (w : Word) : Byte := w.extractLsb' 8 8

/-- The second byte of a word in memory: bits 7 to 0 (R43). -/
def loByte (w : Word) : Byte := w.extractLsb' 0 8

/-! ### The opcode table (R63) -/

/-- The 34 rows of R63: number, match, mask. -/
def opcodeTable : List OpcodeRow :=
  [⟨1, 0x00E0, 0xFFFF⟩, ⟨2, 0x00EE, 0xFFFF⟩, ⟨3, 0x1000, 0xF000⟩, ⟨4, 0x2000, 0xF000⟩,
   ⟨5, 0x3000, 0xF000⟩, ⟨6, 0x4000, 0xF000⟩, ⟨7, 0x5000, 0xF00F⟩, ⟨8, 0x6000, 0xF000⟩,
   ⟨9, 0x7000, 0xF000⟩, ⟨10, 0x8000, 0xF00F⟩, ⟨11, 0x8001, 0xF00F⟩, ⟨12, 0x8002, 0xF00F⟩,
   ⟨13, 0x8003, 0xF00F⟩, ⟨14, 0x8004, 0xF00F⟩, ⟨15, 0x8005, 0xF00F⟩, ⟨16, 0x8006, 0xF00F⟩,
   ⟨17, 0x8007, 0xF00F⟩, ⟨18, 0x800E, 0xF00F⟩, ⟨19, 0x9000, 0xF00F⟩, ⟨20, 0xA000, 0xF000⟩,
   ⟨21, 0xB000, 0xF000⟩, ⟨22, 0xC000, 0xF000⟩, ⟨23, 0xD000, 0xF000⟩, ⟨24, 0xE09E, 0xF0FF⟩,
   ⟨25, 0xE0A1, 0xF0FF⟩, ⟨26, 0xF007, 0xF0FF⟩, ⟨27, 0xF00A, 0xF0FF⟩, ⟨28, 0xF015, 0xF0FF⟩,
   ⟨29, 0xF018, 0xF0FF⟩, ⟨30, 0xF01E, 0xF0FF⟩, ⟨31, 0xF029, 0xF0FF⟩, ⟨32, 0xF033, 0xF0FF⟩,
   ⟨33, 0xF055, 0xF0FF⟩, ⟨34, 0xF065, 0xF0FF⟩]

/-- The number of an instruction's row in R63. -/
def Instr.rowNum : Instr → Nat
  | .cls => 1
  | .ret => 2
  | .jp _ => 3
  | .call _ => 4
  | .seImm _ _ => 5
  | .sneImm _ _ => 6
  | .seReg _ _ => 7
  | .ldImm _ _ => 8
  | .addImm _ _ => 9
  | .ldReg _ _ => 10
  | .orReg _ _ => 11
  | .andReg _ _ => 12
  | .xorReg _ _ => 13
  | .addReg _ _ => 14
  | .subReg _ _ => 15
  | .shr _ _ => 16
  | .subnReg _ _ => 17
  | .shl _ _ => 18
  | .sneReg _ _ => 19
  | .ldI _ => 20
  | .jpV0 _ => 21
  | .rnd _ _ => 22
  | .drw _ _ _ => 23
  | .skp _ => 24
  | .sknp _ => 25
  | .ldVxDT _ => 26
  | .ldVxK _ => 27
  | .ldDTVx _ => 28
  | .ldSTVx _ => 29
  | .addI _ => 30
  | .ldF _ => 31
  | .ldB _ => 32
  | .stRegs _ => 33
  | .ldRegs _ => 34

/-! ### The decoder (R64) -/

/-- Family 0 accepts two whole words (R64, D2). -/
def decodeFamily0 (w : Word) : Except DecodeError Instr :=
  if w = 0x00E0#16 then .ok .cls
  else if w = 0x00EE#16 then .ok .ret
  else .error (.unknownInstruction w)

/-- Family 8 dispatches on the low nibble (R64). -/
def decodeFamily8 (w : Word) : Except DecodeError Instr :=
  match (nField w).toNat with
  | 0x0 => .ok (.ldReg (xField w) (yField w))
  | 0x1 => .ok (.orReg (xField w) (yField w))
  | 0x2 => .ok (.andReg (xField w) (yField w))
  | 0x3 => .ok (.xorReg (xField w) (yField w))
  | 0x4 => .ok (.addReg (xField w) (yField w))
  | 0x5 => .ok (.subReg (xField w) (yField w))
  | 0x6 => .ok (.shr (xField w) (yField w))
  | 0x7 => .ok (.subnReg (xField w) (yField w))
  | 0xE => .ok (.shl (xField w) (yField w))
  | _ => .error (.unknownInstruction w)

/-- Family E dispatches on the low byte (R64). -/
def decodeFamilyE (w : Word) : Except DecodeError Instr :=
  if nnField w = 0x9E#8 then .ok (.skp (xField w))
  else if nnField w = 0xA1#8 then .ok (.sknp (xField w))
  else .error (.unknownInstruction w)

/-- Family F dispatches on the low byte (R64). -/
def decodeFamilyF (w : Word) : Except DecodeError Instr :=
  if nnField w = 0x07#8 then .ok (.ldVxDT (xField w))
  else if nnField w = 0x0A#8 then .ok (.ldVxK (xField w))
  else if nnField w = 0x15#8 then .ok (.ldDTVx (xField w))
  else if nnField w = 0x18#8 then .ok (.ldSTVx (xField w))
  else if nnField w = 0x1E#8 then .ok (.addI (xField w))
  else if nnField w = 0x29#8 then .ok (.ldF (xField w))
  else if nnField w = 0x33#8 then .ok (.ldB (xField w))
  else if nnField w = 0x55#8 then .ok (.stRegs (xField w))
  else if nnField w = 0x65#8 then .ok (.ldRegs (xField w))
  else .error (.unknownInstruction w)

/-- The decoder: total on the 65536 words, first on the high nibble, then on the low nibble or byte (R64). -/
def decode (w : Word) : Except DecodeError Instr :=
  match (opField w).toNat with
  | 0x0 => decodeFamily0 w
  | 0x1 => .ok (.jp (nnnField w))
  | 0x2 => .ok (.call (nnnField w))
  | 0x3 => .ok (.seImm (xField w) (nnField w))
  | 0x4 => .ok (.sneImm (xField w) (nnField w))
  | 0x5 => if nField w = 0#4 then .ok (.seReg (xField w) (yField w)) else .error (.unknownInstruction w)
  | 0x6 => .ok (.ldImm (xField w) (nnField w))
  | 0x7 => .ok (.addImm (xField w) (nnField w))
  | 0x8 => decodeFamily8 w
  | 0x9 => if nField w = 0#4 then .ok (.sneReg (xField w) (yField w)) else .error (.unknownInstruction w)
  | 0xA => .ok (.ldI (nnnField w))
  | 0xB => .ok (.jpV0 (nnnField w))
  | 0xC => .ok (.rnd (xField w) (nnField w))
  | 0xD => .ok (.drw (xField w) (yField w) (nField w))
  | 0xE => decodeFamilyE w
  | 0xF => decodeFamilyF w
  | _ => .error (.unknownInstruction w)

/-- The decoder on the two bytes an instruction occupies, in the order memory holds them (R43, R60). -/
def decodeBytes (hi lo : Byte) : Except DecodeError Instr := decode (wordOfBytes hi lo)

/-! ### The encoder: the formats of R62, filled with the fixed bits of R63 -/

/-- A register number as the four bits of its field (R61). -/
def regBits (x : RegIdx) : Nibble := BitVec.ofNat 4 x.val

/-- Format `A`, `hnnn`. -/
def formatA (h : Nibble) (nnn : Addr) : Word := h ++ nnn

/-- Format `XI`, `hxnn`, and format `X`, `hxhh`, whose low byte is fixed. -/
def formatXI (h : Nibble) (x : RegIdx) (nn : Byte) : Word := h ++ regBits x ++ nn

/-- Format `XYN`, `hxyn`, and format `XY`, `hxyh`, whose low nibble is fixed. -/
def formatXYN (h : Nibble) (x y : RegIdx) (n : Nibble) : Word :=
  h ++ regBits x ++ regBits y ++ n

/-- The word of an instruction (R62, R63). -/
def encode : Instr → Word
  | .cls => 0x00E0
  | .ret => 0x00EE
  | .jp nnn => formatA 0x1 nnn
  | .call nnn => formatA 0x2 nnn
  | .seImm x nn => formatXI 0x3 x nn
  | .sneImm x nn => formatXI 0x4 x nn
  | .seReg x y => formatXYN 0x5 x y 0x0
  | .ldImm x nn => formatXI 0x6 x nn
  | .addImm x nn => formatXI 0x7 x nn
  | .ldReg x y => formatXYN 0x8 x y 0x0
  | .orReg x y => formatXYN 0x8 x y 0x1
  | .andReg x y => formatXYN 0x8 x y 0x2
  | .xorReg x y => formatXYN 0x8 x y 0x3
  | .addReg x y => formatXYN 0x8 x y 0x4
  | .subReg x y => formatXYN 0x8 x y 0x5
  | .shr x y => formatXYN 0x8 x y 0x6
  | .subnReg x y => formatXYN 0x8 x y 0x7
  | .shl x y => formatXYN 0x8 x y 0xE
  | .sneReg x y => formatXYN 0x9 x y 0x0
  | .ldI nnn => formatA 0xA nnn
  | .jpV0 nnn => formatA 0xB nnn
  | .rnd x nn => formatXI 0xC x nn
  | .drw x y n => formatXYN 0xD x y n
  | .skp x => formatXI 0xE x 0x9E
  | .sknp x => formatXI 0xE x 0xA1
  | .ldVxDT x => formatXI 0xF x 0x07
  | .ldVxK x => formatXI 0xF x 0x0A
  | .ldDTVx x => formatXI 0xF x 0x15
  | .ldSTVx x => formatXI 0xF x 0x18
  | .addI x => formatXI 0xF x 0x1E
  | .ldF x => formatXI 0xF x 0x29
  | .ldB x => formatXI 0xF x 0x33
  | .stRegs x => formatXI 0xF x 0x55
  | .ldRegs x => formatXI 0xF x 0x65

/-! ### The host's question, in the numbering of spec/opcode_table.json -/

/-- What the decoder reads from an instruction whose bits are `w`: bit 0 is bit 0 of the one 16-bit word, every bit above
`nbits` is 0, and the word is laid out high byte first (R43). -/
def decodeTableWord (nbits w : Nat) : Option Instr :=
  let word : Word := BitVec.ofNat 16 (w % 2 ^ nbits)
  match decodeBytes (hiByte word) (loByte word) with
  | .ok i => some i
  | .error _ => none

end Sys2Proof
end

