-- ==== Sys2Proof/Config.lean ====
section
/-!
DEFINITION. What is fixed for this machine (00_scope.md R4) and the one free value of the spec: the random bytes.
-/
namespace Sys2Proof.Config

/-- `MEM_SIZE`: 4096 bytes, addresses 0 to 4095 (R4, R16, R40). -/
@[simp] abbrev memSize : Nat := 4096

/-- `FONT_SIZE`: the font occupies addresses 0 to 79 (R4, R16). -/
@[simp] abbrev fontSize : Nat := 80

/-- `PROG_BASE`: programs are loaded at 512, where execution starts (R4, R22, R222). -/
@[simp] abbrev progBase : Nat := 512

/-- `PROG_MAX`: a program has at most 3584 bytes (R4, R176). -/
@[simp] abbrev progMax : Nat := 3584

/-- FREE VALUE (log 2): the random bytes the host side supplies (R89, R179, D16), one per number. It has no body, so no
proof can see a value of it or a relation between two values: a claim holds for every sequence of draws. -/
opaque rnd : Nat → Byte

end Sys2Proof.Config
end

