-- ==== Sys2Proof/Machine/State.lean ====
section
/-!
DEFINITION. The machine's state as plain data (10_state.md R10), its value after reset (R22), and the reasons a step can
stop.
-/
namespace Sys2Proof.Machine

/-- The framebuffer: 32 rows, top to bottom, of 64 pixels, left to right; `true` is the value 1, on (R17). -/
abbrev Frame := Vector (Vector Bool 64) 32

/-- The 4096 bytes of `mem` (R16), held as the cells that differ from what they hold after reset (log 18). The canonical
form of `cells` is `Memory.wf` (Machine/Ops.lean). -/
structure Memory where
  /-- MODEL'S OWN: the parameter FONT (R4, R23, log 1), what `Initialize` copies to addresses 0 to 79. Never written. -/
  font : Vector Byte 80
  /-- The cells that differ from their reset content, by rising address. -/
  cells : List Host.Cell
deriving DecidableEq, Repr

/-- The complete state: the twelve elements of R10 under the spec's names, then two fields of the model's own. -/
structure State where
  /-- The memory (R16, 20_memory.md). -/
  mem : Memory
  /-- The general registers `V[0]` to `V[15]`; `VF` is `V[15]` (R11, R12). -/
  V : Vector Byte 16
  /-- The index register (R13). -/
  I : Word
  /-- The program counter (R14). -/
  pc : Word
  /-- The call stack's entries (R15). -/
  stack : Vector Word 16
  /-- The number of stack entries in use, 0 to 16 (R15). -/
  sp : Fin 17
  /-- The framebuffer (R17). -/
  fb : Frame
  /-- The keypad: `true` is down. Written by the host between cycles (R18, R173). -/
  key : Vector Bool 16
  /-- The delay timer (R19). -/
  DT : Byte
  /-- The sound timer (R19). -/
  ST : Byte
  /-- The host must repaint (R20). -/
  redraw : Bool
  /-- The host must play a tone (R20). -/
  sound : Bool
  /-- MODEL'S OWN: the random byte the next `Cxnn` draws, an input and not machine state (R89, R179, log 2). -/
  rnd : Byte
  /-- MODEL'S OWN: how many bytes of `Config.rnd` have been taken, so that the next one is fresh (log 2). -/
  drawn : Nat
deriving DecidableEq, Repr

/-- The five fatal errors (R190). Each ends its cycle with no state change and is reported to the host with its
information word (R85, R177). -/
inductive Fault where
  /-- Raised by `step` when the fetched word decodes to no instruction; carries the word (R65, R191). Safe: the spec makes
  this outcome fatal. -/
  | unknownInstruction (w : Word)
  /-- Raised by `2nnn` when `sp = 16`; carries the instruction word (R102, R192). Safe: where the reference goes on
  undefined, the model stops (D6, log 7). -/
  | stackOverflow (w : Word)
  /-- Raised by `00EE` when `sp = 0`; carries the word `0x00EE` (R100, R193). Safe, as for overflow (D6, log 7). -/
  | stackUnderflow (w : Word)
  /-- Raised by fetch, `Dxyn`, `Fx33`, `Fx55` and `Fx65` for an access above address 4095; carries the lowest such address
  (R42, R194). Safe: where the reference goes on undefined, the model stops (D7, log 8). -/
  | memoryOutOfBounds (a : Word)
  /-- Raised by `Ex9E` and `ExA1` when `Vx > 15`; carries `Vx` zero-extended (R160, R195). Safe, as for memory (D8, log 9). -/
  | keyIndexOutOfRange (v : Word)
deriving DecidableEq, Repr

/-- Why an instruction has no meaning in the model. -/
inductive Refusal where
  /-- Raised by an arm of `exec` whose instruction is not modelled. No arm raises it: all 34 have their meaning. Safe: the
  model would stop where the hardware goes on. -/
  | notModelled (mnemonic : String)
deriving DecidableEq, Repr

/-- Every element at its value after `Initialize` (R22, R220), for a given FONT and given random input. -/
def State.initial (font : Vector Byte 80) (rnd : Byte) (drawn : Nat) : State where
  mem := { font := font, cells := [] }
  V := Vector.replicate 16 0
  I := 0
  pc := 0x200
  stack := Vector.replicate 16 0
  sp := 0
  fb := Vector.replicate 32 (Vector.replicate 64 false)
  key := Vector.replicate 16 false
  DT := 0
  ST := 0
  redraw := true
  sound := false
  rnd := rnd
  drawn := drawn

/-- The machine right after reset (R22, R222), with the recommended FONT (PRESUMED, log 1) and the first random byte free
(DESIGN CHOICE, log 2). -/
def State.reset : State := State.initial recommendedFont (Config.rnd 0) 1

end Sys2Proof.Machine
end

