-- ==== Sys2Proof/Machine/Ops.lean ====
section
/-!
DEFINITION. The named operations every instruction is written in: memory, registers, the program counter, the call stack,
fatal errors, the timer tick. Each is the one home of the rule it cites.
-/
namespace Sys2Proof.Machine

/-! ### Memory (20_memory.md) -/

/-- What an address holds after reset, and so what an unlisted address reads as: the font, then zero (R22, R41). -/
def Memory.unlisted (m : Memory) (a : Nat) : Byte :=
  if h : a < 80 then m.font[a] else 0

/-- The canonical form of a list of cells, all addresses being at least `lo`: addresses strictly rising and inside the
4096 bytes, no entry equal to what an unlisted address reads as. -/
def Memory.wfFrom (m : Memory) (lo : Nat) : List Host.Cell → Bool
  | [] => true
  | (a, v) :: rest => lo ≤ a && a < Config.memSize && v != m.unlisted a && m.wfFrom (a + 1) rest

/-- The memory is in its one canonical form, so that equal memories are equal data (log 18). -/
def Memory.wf (m : Memory) : Bool := m.wfFrom 0 m.cells

/-- The byte a list of cells gives for an address, if it lists it before any higher address. -/
def Memory.findCell (a : Nat) : List Host.Cell → Option Byte
  | [] => none
  | (b, v) :: rest => if b < a then findCell a rest else if b = a then some v else none

/-- The byte at an address (R46, R49). Instructions call it only after `guardBlock` has tested the address (R42). -/
def Memory.read (m : Memory) (a : Nat) : Byte := (Memory.findCell a m.cells).getD (m.unlisted a)

/-- Lists `v` at `a` in its place; with `keep = false` the address becomes unlisted. -/
def Memory.putCell (a : Nat) (v : Byte) (keep : Bool) : List Host.Cell → List Host.Cell
  | [] => if keep then [(a, v)] else []
  | (b, w) :: rest =>
    if b < a then (b, w) :: putCell a v keep rest
    else if b = a then (if keep then (a, v) :: rest else rest)
    else (if keep then (a, v) :: (b, w) :: rest else (b, w) :: rest)

/-- Stores one byte (R44, R46). Storing what an unlisted address reads as removes the entry (log 18). -/
def Memory.write (m : Memory) (a : Nat) (v : Byte) : Memory :=
  { m with cells := Memory.putCell a v (v != m.unlisted a) m.cells }

/-- The bytes at `a`, `a + 1`, ..., in ascending order (R44). -/
def Memory.readBlock (m : Memory) (a : Nat) : Nat → List Byte
  | 0 => []
  | n + 1 => m.read a :: m.readBlock (a + 1) n

/-- Stores bytes at `a`, `a + 1`, ..., in ascending order, the first at the lowest address (R44). -/
def Memory.writeBlock (m : Memory) (a : Nat) : List Byte → Memory
  | [] => m
  | v :: rest => (m.write a v).writeBlock (a + 1) rest

/-! ### Fatal errors (60_exceptions.md) -/

/-- A fatal error ends the cycle: no state is saved or changed, control goes nowhere, the host gets the error (R85, R200).
There is no return from one (R201). -/
def fatal (f : Fault) : Host.Outcome State Fault Refusal := .fault f

/-- The numeric code of a fatal error (R190, D17). -/
def Fault.code : Fault → Nat
  | .unknownInstruction _ => 1
  | .stackOverflow _ => 2
  | .stackUnderflow _ => 3
  | .memoryOutOfBounds _ => 4
  | .keyIndexOutOfRange _ => 5

/-- The 16-bit information word of a fatal error (R190). -/
def Fault.info : Fault → Word
  | .unknownInstruction w => w
  | .stackOverflow w => w
  | .stackUnderflow w => w
  | .memoryOutOfBounds a => a
  | .keyIndexOutOfRange v => v

/-- The bounds rule for an access to `n` bytes from `base`: every address, a natural number, is tested before any write,
and the lowest one out of bounds is reported (R42, R194). No byte, no test (R151). -/
def guardBlock (base n : Nat) (go : Host.Outcome State Fault Refusal) : Host.Outcome State Fault Refusal :=
  if n = 0 ∨ base + n ≤ Config.memSize then go
  else fatal (.memoryOutOfBounds (BitVec.ofNat 16 (max base Config.memSize)))

/-! ### Registers -/

/-- Reads `V[x]` (R11). -/
def State.getV (s : State) (x : RegIdx) : Byte := s.V[x]

/-- Writes `V[x]` (R11). -/
def State.setV (s : State) (x : RegIdx) (v : Byte) : State := { s with V := s.V.set x v }

/-- Writes `VF` as a flag: 1 or 0 (R12). Where an instruction writes `Vx` too, this comes last (R84). -/
def State.setFlag (s : State) (c : Bool) : State := s.setV regF (if c then 1 else 0)

/-- Writes the index register, all 16 bits (R13). -/
def State.setI (s : State) (v : Word) : State := { s with I := v }

/-- Writes the delay timer (R19). -/
def State.setDT (s : State) (v : Byte) : State := { s with DT := v }

/-- Writes the sound timer (R19). -/
def State.setST (s : State) (v : Byte) : State := { s with ST := v }

/-- Replaces the memory. -/
def State.setMem (s : State) (m : Memory) : State := { s with mem := m }

/-- Replaces the framebuffer and requests a repaint, whether or not a pixel changed (R20, R150, R151). -/
def State.setFb (s : State) (f : Frame) : State := { s with fb := f, redraw := true }

/-- Takes the random byte that was drawn out of the way: the next one is fresh and free (R89, log 2). -/
def State.nextRnd (s : State) : State := { s with rnd := Config.rnd s.drawn, drawn := s.drawn + 1 }

/-! ### The program counter (R83) -/

/-- Writes `pc`, 16 bits (R14). -/
def State.setPc (s : State) (target : Word) : State := { s with pc := target }

/-- The sequential instruction: `pc <- pc + 2` (R83). -/
def State.advance (s : State) : State := s.setPc (s.pc + 2)

/-- A skip: `pc <- pc + 4` if the condition holds, else `pc <- pc + 2` (R83). -/
def State.skipIf (s : State) (c : Bool) : State := s.setPc (s.pc + if c then 4 else 2)

/-! ### The call stack (R15) -/

/-- Pushes a word: `stack[sp] <- w`, then `sp <- sp + 1`; none when the stack is full (R15, R102). -/
def State.push (s : State) (w : Word) : Option State :=
  if h : s.sp.val < 16 then
    some { s with stack := s.stack.set s.sp.val w, sp := ⟨s.sp.val + 1, by omega⟩ }
  else none

/-- Pops a word: `sp <- sp - 1`, then the word at `stack[sp]`, which stays there; none when the stack is empty
(R15, R100). -/
def State.pop (s : State) : Option (Word × State) :=
  if h : 0 < s.sp.val then
    some (s.stack[s.sp.val - 1], { s with sp := ⟨s.sp.val - 1, by omega⟩ })
  else none

/-! ### The ends of a cycle (40_cycle.md) -/

/-- Fetch: the big-endian word at `pc` and `pc + 1`, which fetch does not advance; an address above 4095 is fatal, and the
lowest one is reported: `pc` if it is above 4095, else 4096 (R43, R81, R194). No alignment condition (R45). -/
def State.fetch (s : State) : Except Fault Word :=
  if s.pc.toNat + 2 ≤ Config.memSize then
    .ok (wordOfBytes (s.mem.read s.pc.toNat) (s.mem.read (s.pc.toNat + 1)))
  else .error (.memoryOutOfBounds (BitVec.ofNat 16 (max s.pc.toNat Config.memSize)))

/-- Fetch and decode, in that order: the conditions of the earlier phase are reported first (R80, R82, R199). -/
def State.fetchInstr (s : State) : Except Fault Instr :=
  match s.fetch with
  | .error f => .error f
  | .ok w =>
    match decode w with
    | .ok i => .ok i
    | .error (.unknownInstruction u) => .error (.unknownInstruction u)

/-- The timer tick that ends every cycle that raises nothing: both timers go down towards zero and stop there, and `sound`
is set in the cycle in which `ST` goes from 1 to 0 (R86). -/
def State.timerTick (s : State) : State :=
  { s with
    DT := if s.DT = 0 then 0 else s.DT - 1
    ST := if s.ST = 0 then 0 else s.ST - 1
    sound := if s.ST = 1 then true else s.sound }

/-- The end of a cycle whose execute phase answered `r`: the timer tick if it went on, waiting cycles included, and nothing
if it raised (R85, R86). -/
def endCycle (r : Host.Outcome State Fault Refusal) : Host.Outcome State Fault Refusal :=
  match r with
  | .next t => .next t.timerTick
  | .fault f => .fault f
  | .refused e => .refused e

/-- Where an instruction must lie to be fetched next: `pc`, or 512 where no fetch at `pc` can succeed (log 21). -/
def State.fetchPlace (s : State) : Word := if s.pc.toNat + 2 ≤ Config.memSize then s.pc else 0x200

/-- The machine with the word `w` where the next fetch reads it, high byte first (R43, log 21). -/
def State.placeWord (s : State) (w : Word) : State :=
  { s with mem := s.mem.writeBlock s.fetchPlace.toNat [hiByte w, loByte w], pc := s.fetchPlace }

end Sys2Proof.Machine
end

