-- ==== Sys2Proof/Machine/Operands.lean ====
section
/-!
DEFINITION. The operand forms of the instruction set: literals, addresses, the register block, the key a register names,
the highest key down, decimal digits (30_encoding.md R61, 43_index_memory.md R146).
-/
namespace Sys2Proof.Machine

/-- A 12-bit literal as a 16-bit address, zero-extended (R61, R101, R140). -/
def addrOperand (nnn : Addr) : Word := nnn.setWidth 16

/-- The target of `Bnnn`: `nnn + V0`, 16 bits, not reduced to 12 (R107). -/
def jumpOffset (s : State) (nnn : Addr) : Word := addrOperand nnn + (s.getV 0).setWidth 16

/-- The base of every data access: `I`, as a natural number (R146). -/
def State.base (s : State) : Nat := s.I.toNat

/-- The number of bytes the register block `V0` to `Vx` takes: `x` is the field, not the register's content (R144). -/
def blockLen (x : RegIdx) : Nat := x.val + 1

/-- The bytes of `V0` to `Vx`, in ascending order (R144). -/
def State.regBlock (s : State) (x : RegIdx) : List Byte := s.V.toList.take (blockLen x)

/-- `V0` to `Vx` taken from memory from `a` upward, the registers above `Vx` kept (R145). -/
def State.loadBlock (s : State) (x : RegIdx) (a : Nat) : Vector Byte 16 :=
  Vector.ofFn fun k : Fin 16 => if k ≤ x then s.mem.read (a + k.val) else s.V[k]

/-- `I` moved past the register block, modulo 65536 (R144, R145). -/
def State.pastBlock (s : State) (x : RegIdx) : Word := BitVec.ofNat 16 (s.base + blockLen x)

/-- The address of the glyph of a digit: five times the whole register, at most 1275 (R142). -/
def glyphAddr (v : Byte) : Word := BitVec.ofNat 16 (v.toNat * 5)

/-- The hundreds, tens and ones of a byte, one digit a byte (R143). -/
def decimalDigits (v : Byte) : List Byte :=
  [BitVec.ofNat 8 (v.toNat / 100), BitVec.ofNat 8 (v.toNat / 10 % 10), BitVec.ofNat 8 (v.toNat % 10)]

/-- The key a register names is handed on: its number is the register's whole content, and a number above 15 is fatal
(R160, R161, R195). -/
def guardKey (s : State) (v : Byte) (go : Bool → Host.Outcome State Fault Refusal) : Host.Outcome State Fault Refusal :=
  if h : v.toNat < 16 then go s.key[v.toNat] else fatal (.keyIndexOutOfRange (v.setWidth 16))

/-- The scan of `Fx0A`: keys 0 to 15 in ascending order with no early exit, so that the last key found down, the
highest-numbered, is the answer (R163). -/
def lastKeyDown (key : Vector Bool 16) : Option RegIdx :=
  (List.finRange 16).foldl (fun found k => if key[k] then some k else found) none

end Sys2Proof.Machine
end

