-- ==== Sys2Proof/Machine/Alu.lean ====
section
/-!
DEFINITION. Register loads, arithmetic and logic (42_alu.md). Operands are read from the state the cycle began with; the
result goes to `Vx` and then, where the rule writes it, the flag to `VF` (R84, log 11).
-/
namespace Sys2Proof.Machine

/-- `6xnn`: `Vx <- nn` (R120). -/
def execLdImm (x : RegIdx) (nn : Byte) (s : State) : Host.Outcome State Fault Refusal :=
  .next (s.setV x nn).advance

/-- `7xnn`: `Vx <- Vx + nn` modulo 256, no flag (R121). -/
def execAddImm (x : RegIdx) (nn : Byte) (s : State) : Host.Outcome State Fault Refusal :=
  .next (s.setV x (s.getV x + nn)).advance

/-- `8xy0`: `Vx <- Vy` (R122). -/
def execLdReg (x y : RegIdx) (s : State) : Host.Outcome State Fault Refusal :=
  .next (s.setV x (s.getV y)).advance

/-- `8xy1`: bitwise or, no flag (R123). -/
def execOrReg (x y : RegIdx) (s : State) : Host.Outcome State Fault Refusal :=
  .next (s.setV x (s.getV x ||| s.getV y)).advance

/-- `8xy2`: bitwise and, no flag (R124). -/
def execAndReg (x y : RegIdx) (s : State) : Host.Outcome State Fault Refusal :=
  .next (s.setV x (s.getV x &&& s.getV y)).advance

/-- `8xy3`: bitwise exclusive or, no flag (R125). -/
def execXorReg (x y : RegIdx) (s : State) : Host.Outcome State Fault Refusal :=
  .next (s.setV x (s.getV x ^^^ s.getV y)).advance

/-- `8xy4`: `Vx <- Vx + Vy` modulo 256, `VF` = carry (R126). -/
def execAddReg (x y : RegIdx) (s : State) : Host.Outcome State Fault Refusal :=
  .next ((s.setV x (s.getV x + s.getV y)).setFlag (carryOut (s.getV x) (s.getV y))).advance

/-- `8xy5`: `Vx <- Vx - Vy` modulo 256, `VF` = no borrow (R127). -/
def execSubReg (x y : RegIdx) (s : State) : Host.Outcome State Fault Refusal :=
  .next ((s.setV x (s.getV x - s.getV y)).setFlag (noBorrow (s.getV x) (s.getV y))).advance

/-- `8xy6`: `Vx` shifted right by one in place, `VF` = the bit dropped; `y` is ignored (R128, R66). -/
def execShr (x _y : RegIdx) (s : State) : Host.Outcome State Fault Refusal :=
  .next ((s.setV x (s.getV x >>> 1)).setFlag (lowBitOut (s.getV x))).advance

/-- `8xy7`: `Vx <- Vy - Vx` modulo 256, `VF` = no borrow (R129). -/
def execSubnReg (x y : RegIdx) (s : State) : Host.Outcome State Fault Refusal :=
  .next ((s.setV x (s.getV y - s.getV x)).setFlag (noReverseBorrow (s.getV x) (s.getV y))).advance

/-- `8xyE`: `Vx` shifted left by one in place, `VF` = the bit dropped; `y` is ignored (R130, R66). -/
def execShl (x _y : RegIdx) (s : State) : Host.Outcome State Fault Refusal :=
  .next ((s.setV x (s.getV x <<< 1)).setFlag (highBitOut (s.getV x))).advance

/-- `Cxnn`: `Vx <- rnd & nn`, the byte drawn being any value; the next one is fresh (R131, R89, log 2). -/
def execRnd (x : RegIdx) (nn : Byte) (s : State) : Host.Outcome State Fault Refusal :=
  .next (s.setV x (s.rnd &&& nn)).nextRnd.advance

end Sys2Proof.Machine
end

