-- ==== Sys2Proof/Machine/ControlFlow.lean ====
section
/-!
DEFINITION. Control transfer and skips (41_control_flow.md). In each, `s.pc` is the address of the instruction itself.
-/
namespace Sys2Proof.Machine

/-- `00EE`: the popped address plus 2; underflow is fatal (R100, D6). -/
def execRet (s : State) : Host.Outcome State Fault Refusal :=
  match s.pop with
  | some (a, t) => .next (t.setPc (a + 2))
  | none => fatal (.stackUnderflow (encode .ret))

/-- `1nnn`: the target, and no `+ 2` (R101). -/
def execJp (nnn : Addr) (s : State) : Host.Outcome State Fault Refusal :=
  .next (s.setPc (addrOperand nnn))

/-- `2nnn`: the address of the call itself is pushed; overflow is fatal (R102, D6). -/
def execCall (nnn : Addr) (s : State) : Host.Outcome State Fault Refusal :=
  match s.push s.pc with
  | some t => .next (t.setPc (addrOperand nnn))
  | none => fatal (.stackOverflow (encode (.call nnn)))

/-- `3xnn`: skip if `Vx = nn` (R103). -/
def execSeImm (x : RegIdx) (nn : Byte) (s : State) : Host.Outcome State Fault Refusal :=
  .next (s.skipIf (s.getV x == nn))

/-- `4xnn`: skip if `Vx ≠ nn` (R104). -/
def execSneImm (x : RegIdx) (nn : Byte) (s : State) : Host.Outcome State Fault Refusal :=
  .next (s.skipIf (s.getV x != nn))

/-- `5xy0`: skip if `Vx = Vy` (R105). -/
def execSeReg (x y : RegIdx) (s : State) : Host.Outcome State Fault Refusal :=
  .next (s.skipIf (s.getV x == s.getV y))

/-- `9xy0`: skip if `Vx ≠ Vy` (R106). -/
def execSneReg (x y : RegIdx) (s : State) : Host.Outcome State Fault Refusal :=
  .next (s.skipIf (s.getV x != s.getV y))

/-- `Bnnn`: `nnn + V0`, and no `+ 2` (R107). -/
def execJpV0 (nnn : Addr) (s : State) : Host.Outcome State Fault Refusal :=
  .next (s.setPc (jumpOffset s nnn))

end Sys2Proof.Machine
end

