-- ==== Sys2Proof/Machine/Display.lean ====
section
/-!
DEFINITION. The display framebuffer writer (44_display.md). The drawing is the loop of R151: it carries the framebuffer
and whether any pixel has gone from on to off.
-/
namespace Sys2Proof.Machine

/-- The framebuffer with every pixel off (R150). -/
def blankFrame : Frame := Vector.replicate 32 (Vector.replicate 64 false)

/-- One set sprite bit lands on column `cx`, row `ry`, natural numbers: on the screen the pixel is toggled, and a pixel
that was on is a hit; off the screen it is skipped (R151, R153). -/
def plot (cx ry : Nat) (d : Frame × Bool) : Frame × Bool :=
  if h : cx ≤ 63 ∧ ry ≤ 31 then
    (d.1.set ry (d.1[ry].set cx (!d.1[ry][cx])), d.2 || d.1[ry][cx])
  else d

/-- One sprite row: column `j` is bit `7 - j` of the byte, and only set bits are drawn (R151, R152). -/
def drawByte (b : Byte) (x0 ry : Nat) (d : Frame × Bool) : Frame × Bool :=
  (List.range 8).foldl (fun d j => if b.getLsbD (7 - j) then plot (x0 + j) ry d else d) d

/-- The sprite rows from row `ry` down (R151). -/
def drawRows (x0 : Nat) : List Byte → Nat → Frame × Bool → Frame × Bool
  | [], _, d => d
  | b :: rest, ry, d => drawRows x0 rest (ry + 1) (drawByte b x0 ry d)

/-- `00E0`: clear the screen and request a repaint; `VF` is kept (R150). -/
def execCls (s : State) : Host.Outcome State Fault Refusal :=
  .next (s.setFb blankFrame).advance

/-- `Dxyn`: draw `n` rows from `I` with the top left pixel at column `Vx`, row `Vy`, both read before `VF` is written;
`VF` = collision (R151, R84). -/
def execDrw (x y : RegIdx) (n : Nibble) (s : State) : Host.Outcome State Fault Refusal :=
  let d := drawRows (s.getV x).toNat (s.mem.readBlock s.base n.toNat) (s.getV y).toNat (s.fb, false)
  guardBlock s.base n.toNat (.next ((s.setFb d.1).setFlag d.2).advance)

end Sys2Proof.Machine
end

