-- ==== Sys2Proof/Machine/IndexMemory.lean ====
section
/-!
DEFINITION. The index register, loads and stores (43_index_memory.md). Bounds are tested before any write (R42, R85).
-/
namespace Sys2Proof.Machine

/-- `Annn`: `I <- nnn` (R140). -/
def execLdI (nnn : Addr) (s : State) : Host.Outcome State Fault Refusal :=
  .next (s.setI (addrOperand nnn)).advance

/-- `Fx1E`: `I <- I + Vx` modulo 65536, `VF` = the new `I` is above 0xFFF (R141, D11). -/
def execAddI (x : RegIdx) (s : State) : Host.Outcome State Fault Refusal :=
  .next ((s.setI (s.I + (s.getV x).setWidth 16)).setFlag (aboveAddr (s.I + (s.getV x).setWidth 16))).advance

/-- `Fx29`: `I <- Vx * 5` (R142, D22). -/
def execLdF (x : RegIdx) (s : State) : Host.Outcome State Fault Refusal :=
  .next (s.setI (glyphAddr (s.getV x))).advance

/-- `Fx33`: the decimal digits of `Vx` at `I`, `I + 1`, `I + 2`; `I` is kept (R143). -/
def execLdB (x : RegIdx) (s : State) : Host.Outcome State Fault Refusal :=
  guardBlock s.base 3 (.next (s.setMem (s.mem.writeBlock s.base (decimalDigits (s.getV x)))).advance)

/-- `Fx55`: `V0` to `Vx` at `I` upward, then `I` past the block (R144). -/
def execStRegs (x : RegIdx) (s : State) : Host.Outcome State Fault Refusal :=
  guardBlock s.base (blockLen x)
    (.next ((s.setMem (s.mem.writeBlock s.base (s.regBlock x))).setI (s.pastBlock x)).advance)

/-- `Fx65`: `V0` to `Vx` from `I` upward, then `I` past the block (R145). -/
def execLdRegs (x : RegIdx) (s : State) : Host.Outcome State Fault Refusal :=
  guardBlock s.base (blockLen x)
    (.next (({ s with V := s.loadBlock x s.base } : State).setI (s.pastBlock x)).advance)

end Sys2Proof.Machine
end

