-- ==== Sys2Proof/Machine/KeypadTimers.lean ====
section
/-!
DEFINITION. Keypad and timer instructions (45_keypad_timers.md). The timer tick of the same cycle comes after them
(`State.timerTick`).
-/
namespace Sys2Proof.Machine

/-- `Ex9E`: skip if the key `Vx` is down (R160, D8). -/
def execSkp (x : RegIdx) (s : State) : Host.Outcome State Fault Refusal :=
  guardKey s (s.getV x) fun down => .next (s.skipIf down)

/-- `ExA1`: skip if the key `Vx` is up (R161, D8). -/
def execSknp (x : RegIdx) (s : State) : Host.Outcome State Fault Refusal :=
  guardKey s (s.getV x) fun down => .next (s.skipIf (!down))

/-- `Fx07`: `Vx <- DT`, before the tick (R162). -/
def execLdVxDT (x : RegIdx) (s : State) : Host.Outcome State Fault Refusal :=
  .next (s.setV x s.DT).advance

/-- `Fx0A`: the highest key down goes to `Vx`; with no key down nothing is written and `pc` stays (R163). -/
def execLdVxK (x : RegIdx) (s : State) : Host.Outcome State Fault Refusal :=
  match lastKeyDown s.key with
  | some k => .next (s.setV x (BitVec.ofNat 8 k.val)).advance
  | none => .next s

/-- `Fx15`: `DT <- Vx` (R164). -/
def execLdDTVx (x : RegIdx) (s : State) : Host.Outcome State Fault Refusal :=
  .next (s.setDT (s.getV x)).advance

/-- `Fx18`: `ST <- Vx` (R165). -/
def execLdSTVx (x : RegIdx) (s : State) : Host.Outcome State Fault Refusal :=
  .next (s.setST (s.getV x)).advance

end Sys2Proof.Machine
end

