-- ==== Sys2Proof/Machine/Step.lean ====
section
/-!
DEFINITION. One interpreter cycle (40_cycle.md R80): fetch, decode, execute, timer tick. What the phases do stands in
Machine/Ops.lean, Decode.lean and the instruction files; here they are only put one after the other.
-/
namespace Sys2Proof.Machine

/-- One cycle, its conditions tested in the order of its phases (R80, R199). -/
def step (s : State) : Host.Outcome State Fault Refusal :=
  match s.fetchInstr with
  | .error f => fatal f
  | .ok i => endCycle (exec i s)

/-- `s` with the instruction of the bits `w`, numbered as spec/opcode_table.json numbers them, where the next fetch reads
it; every bit from `nbits` up is 0 (log 21). -/
def State.withFetchWord (s : State) (nbits w : Nat) : State := s.placeWord (BitVec.ofNat 16 (w % 2 ^ nbits))

end Sys2Proof.Machine
end

