-- ==== Sys2Proof/WellFormed.lean ====
section
/-!
DEFINITION. Well-formedness of what comes from outside. An `Instr` needs no check of its own: each operand has the type of
its field's width (R61), so every term of `Instr` is one that an encoding admits, and statements over instructions carry
no such hypothesis. The one input that can be ill-formed is a program given as bytes (R176).
-/
namespace Sys2Proof

/-- A program fits the memory from 512 upward: "length must not exceed" 3584 bytes (R176, R4). -/
def programFits (bytes : List Byte) : Bool := bytes.length ≤ Config.progMax

end Sys2Proof
end

