-- ==== Sys2Proof/Machine/HostInterface.lean ====
section
/-!
DEFINITION. The host's operations (50_host_interface.md R172), one function each. The host performs them only between
cycles (R171, log 17). They do not touch the model's own fields: FONT is a parameter, the random bytes an input.
-/
namespace Sys2Proof.Machine

/-- `Initialize()`, the only reset: every state element takes its reset value; `reset` is another name for it (R220, D15). -/
def resetMachine (s : State) : State := State.initial s.mem.font s.rnd s.drawn

/-- What `Load` tells its caller (R176, R196). -/
inductive LoadResult where
  /-- The program was copied. -/
  | loaded
  /-- The program has more than 3584 bytes; the state is the reset state. -/
  | romTooLarge
deriving DecidableEq, Repr

/-- `Load(bytes)`: `Initialize()`, then the program to 512 upward, or a rejection that leaves the reset state (R176). -/
def load (bytes : List Byte) (s : State) : State × LoadResult :=
  if programFits bytes then
    ((resetMachine s).setMem ((resetMachine s).mem.writeBlock Config.progBase bytes), .loaded)
  else (resetMachine s, .romTooLarge)

/-- `SetKeys(k)`: all 16 key states; they persist until the host writes them again (R173). -/
def setKeys (k : Vector Bool 16) (s : State) : State := { s with key := k }

/-- `ClearRedraw()` (R174). -/
def clearRedraw (s : State) : State := { s with redraw := false }

/-- `ClearSound()` (R174). -/
def clearSound (s : State) : State := { s with sound := false }

/-- What the host can read between cycles, and nothing else (R175, R181). -/
structure HostView where
  /-- The 64 by 32 grid of pixels. -/
  fb : Frame
  /-- The repaint request. -/
  redraw : Bool
  /-- The tone request. -/
  sound : Bool
deriving DecidableEq, Repr

/-- Reading the outputs changes nothing (R175). -/
def hostView (s : State) : HostView := { fb := s.fb, redraw := s.redraw, sound := s.sound }

/-- What a cycle returns to the host (R177). -/
inductive CycleResult where
  /-- The cycle completed. -/
  | ok
  /-- A fatal error, with its code and information word. -/
  | fatal (f : Fault)
  /-- The model has no meaning for the instruction; no instruction answers so. -/
  | noMeaning (r : Refusal)
deriving DecidableEq, Repr

/-- `RunCycle(rnd)`: the next state with `Ok`, or the unchanged state with the fatal error (R80, R85, R177, R179). -/
def runCycle (rnd : Byte) (s : State) : State × CycleResult :=
  match step { s with rnd := rnd } with
  | .next t => (t, .ok)
  | .fault f => (s, .fatal f)
  | .refused r => (s, .noMeaning r)

end Sys2Proof.Machine
end

