-- ==== Sys2Proof/Machine/Ports.lean ====
section
/-!
DEFINITION. The port-level rendering of the host operations (50_host_interface.md R180), non-normative in the spec: "one
way to build" R172 to R179 as synchronous hardware, on which no other rule depends (D18, log 23).
-/
namespace Sys2Proof.Machine

/-- The inputs, every one sampled on the rising edge of `clk` (R180). -/
structure PortIn where
  /-- `Initialize()`; wins over everything else. -/
  rst : Bool
  /-- `RunCycle`. -/
  tick : Bool
  /-- The random byte, sampled with `tick`. -/
  rnd : Byte
  /-- `key[k]` is bit `k`; sampled with `tick`. -/
  key : BitVec 16
  /-- Program load port: write enable. -/
  ldWe : Bool
  /-- Program load port: address. -/
  ldAddr : BitVec 12
  /-- Program load port: byte. -/
  ldData : Byte
  /-- Clears `redraw` where `tick` is 0. -/
  redrawClr : Bool
  /-- Clears `sound` where `tick` is 0. -/
  soundClr : Bool
  /-- Framebuffer read port: the flat address `row * 64 + column`. -/
  fbAddr : BitVec 11
deriving DecidableEq, Repr

/-- The machine with the output registers of the port rendering, which change on the rising edge only (R180). The report
register is "not architectural state"; `redraw` and `sound` are the machine's own flags. -/
structure PortState where
  /-- The machine. -/
  core : State
  /-- 1 after an edge on which a cycle returned a fatal error, until the next `tick` or `rst` edge. -/
  errValid : Bool
  /-- The code of R190, valid with `errValid`. -/
  errCode : BitVec 3
  /-- The information word of R190, valid with `errValid`. -/
  errInfo : Word
  /-- The pixel of the address sampled on the last edge. -/
  fbData : Bool
deriving DecidableEq, Repr

/-- The keypad as the port gives it: `key[k]` is bit `k` (R180). -/
def keysOfPort (k : BitVec 16) : Vector Bool 16 := Vector.ofFn fun i : Fin 16 => k.getLsbD i.val

/-- A cycle on an edge, with the keypad and the random byte as sampled; a fatal error is reported (R180). -/
def tickEdge (p : PortIn) (s : PortState) : PortState :=
  match runCycle p.rnd (setKeys (keysOfPort p.key) s.core) with
  | (t, .ok) => { s with core := t, errValid := false }
  | (t, .fatal f) => { s with core := t, errValid := true, errCode := BitVec.ofNat 3 f.code, errInfo := f.info }
  | (t, .noMeaning _) => { s with core := t, errValid := false }

/-- The host-phase operations of an edge without `tick` or `rst`: the load port, then the two flag clears (R180). -/
def hostEdge (p : PortIn) (s : State) : State :=
  let loaded := if p.ldWe then s.setMem (s.mem.write p.ldAddr.toNat p.ldData) else s
  let repainted := if p.redrawClr then clearRedraw loaded else loaded
  if p.soundClr then clearSound repainted else repainted

/-- What an edge does to the machine and the report register: `rst` wins; a cycle needs `tick` and no `ldWe`; the host-phase
operations need no `tick` (R180). -/
def operateEdge (p : PortIn) (s : PortState) : PortState :=
  if p.rst then { s with core := resetMachine s.core, errValid := false }
  else if p.tick then
    if p.ldWe then { s with errValid := false } else tickEdge p s
  else { s with core := hostEdge p s.core }

/-- The pixel at a flat address, `fb[addr div 64][addr mod 64]` (R180). -/
def fbPixel (addr : BitVec 11) (s : State) : Bool :=
  (s.fb[addr.toNat / 64]'(by omega))[addr.toNat % 64]'(by omega)

/-- One rising edge of `clk`: the operation asked for, and `fb_data` from the address sampled on this edge; the pixel is that
of the framebuffer the edge leaves (DESIGN CHOICE, log 23). -/
def edge (p : PortIn) (s : PortState) : PortState :=
  { operateEdge p s with fbData := fbPixel p.fbAddr (operateEdge p s).core }

/-- The inputs of an edge on which nothing is asked for. -/
def idlePorts : PortIn where
  rst := false
  tick := false
  rnd := 0
  key := 0
  ldWe := false
  ldAddr := 0
  ldData := 0
  redrawClr := false
  soundClr := false
  fbAddr := 0

/-- One write edge per byte, at `a`, `a + 1`, ... (R180). -/
def portWrites (a : Nat) : List Byte → PortState → PortState
  | [], s => s
  | b :: rest, s =>
    portWrites (a + 1) rest (edge { idlePorts with ldWe := true, ldAddr := BitVec.ofNat 12 a, ldData := b } s)

/-- `Load` over the ports: "pulse `rst`, then write bytes" at `512 + i`; the host side has checked the length (R180). -/
def portLoad (bytes : List Byte) (s : PortState) : PortState :=
  portWrites Config.progBase bytes (edge { idlePorts with rst := true } s)

end Sys2Proof.Machine
end

