-- ==== Sys2Proof/Safety.lean ====
section
/-!
DEFINITION. What claims are stated in: the machine's invariant, the states a run can reach, and the classes of instructions
that the spec's whole-machine rules speak of.
-/
namespace Sys2Proof.Machine

/-- The invariant: memory is in canonical form; `pc` is at most 0x10FE, "the largest value a non-faulting instruction can
write" (R14); every stack entry is at most 0xFFE, the highest address a call can be fetched from (R100). That `sp` lies in
0 to 16 (R15) and every register in its width is carried by their types. -/
abbrev State.Inv (s : State) : Prop :=
  s.mem.wf = true ∧ s.pc.toNat ≤ 0x10FE ∧ ∀ k : Fin 16, s.stack[k].toNat ≤ 0xFFE

/-- The states of a run (R171, R172): reset, then cycles that return `Ok` and host operations, in any order. -/
inductive Reachable : State → Prop where
  /-- After `Initialize`, whatever FONT and the random input are. -/
  | start (font : Vector Byte 80) (rnd : Byte) (drawn : Nat) : Reachable (State.initial font rnd drawn)
  /-- One cycle, with the random byte the host side supplies (R179). -/
  | cycle (s t : State) (rnd : Byte) : Reachable s → runCycle rnd s = (t, .ok) → Reachable t
  /-- `Load`, whatever it answers (R176). -/
  | load (s : State) (bytes : List Byte) : Reachable s → Reachable (load bytes s).1
  /-- `SetKeys` (R173). -/
  | setKeys (s : State) (k : Vector Bool 16) : Reachable s → Reachable (setKeys k s)
  /-- `ClearRedraw` (R174). -/
  | clearRedraw (s : State) : Reachable s → Reachable (clearRedraw s)
  /-- `ClearSound` (R174). -/
  | clearSound (s : State) : Reachable s → Reachable (clearSound s)

/-! ### Words the claims use -/

/-- The sprite of `Dxyn` has a set bit at row `r`, column `c` of the screen: bit `7 - j` of sprite byte `k`, where
`Vx + j = c` and `Vy + k = r` as natural numbers (R151 to R153). -/
def SpriteSets (s : State) (x y : RegIdx) (n : Nibble) (r : Fin 32) (c : Fin 64) : Prop :=
  ∃ k j : Nat, k < n.toNat ∧ j < 8 ∧ (s.getV x).toNat + j = c.val ∧ (s.getV y).toNat + k = r.val ∧
    (s.mem.read (s.base + k)).getLsbD (7 - j) = true

/-- The seven instructions that write `VF` as a flag (R12). -/
def flagWriter : Instr → Bool
  | .addReg _ _ => true
  | .subReg _ _ => true
  | .shr _ _ => true
  | .subnReg _ _ => true
  | .shl _ _ => true
  | .drw _ _ _ => true
  | .addI _ => true
  | .cls => false
  | .ret => false
  | .jp _ => false
  | .call _ => false
  | .seImm _ _ => false
  | .sneImm _ _ => false
  | .seReg _ _ => false
  | .sneReg _ _ => false
  | .ldImm _ _ => false
  | .addImm _ _ => false
  | .ldReg _ _ => false
  | .orReg _ _ => false
  | .andReg _ _ => false
  | .xorReg _ _ => false
  | .ldI _ => false
  | .jpV0 _ => false
  | .rnd _ _ => false
  | .skp _ => false
  | .sknp _ => false
  | .ldVxDT _ => false
  | .ldVxK _ => false
  | .ldDTVx _ => false
  | .ldSTVx _ => false
  | .ldF _ => false
  | .ldB _ => false
  | .stRegs _ => false
  | .ldRegs _ => false

/-- Register `k` is a destination that the instruction's rule names: `Vx`, or one of `V0` to `Vx` for `Fx65`
(42_alu.md, 43_index_memory.md, 45_keypad_timers.md). `VF` as a flag is `flagWriter`. -/
def namesDest (k : RegIdx) : Instr → Bool
  | .ldImm x _ => k = x
  | .addImm x _ => k = x
  | .ldReg x _ => k = x
  | .orReg x _ => k = x
  | .andReg x _ => k = x
  | .xorReg x _ => k = x
  | .addReg x _ => k = x
  | .subReg x _ => k = x
  | .shr x _ => k = x
  | .subnReg x _ => k = x
  | .shl x _ => k = x
  | .rnd x _ => k = x
  | .ldVxDT x => k = x
  | .ldVxK x => k = x
  | .ldRegs x => k ≤ x
  | .cls => false
  | .ret => false
  | .jp _ => false
  | .call _ => false
  | .seImm _ _ => false
  | .sneImm _ _ => false
  | .seReg _ _ => false
  | .sneReg _ _ => false
  | .ldI _ => false
  | .jpV0 _ => false
  | .drw _ _ _ => false
  | .skp _ => false
  | .sknp _ => false
  | .ldDTVx _ => false
  | .ldSTVx _ => false
  | .addI _ => false
  | .ldF _ => false
  | .ldB _ => false
  | .stRegs _ => false

/-- What an instruction writes into `pc` (R83). -/
inductive PcKind where
  /-- `pc + 2`. -/
  | sequential
  /-- `pc + 4` or `pc + 2`. -/
  | skip
  /-- A target, a popped address plus 2, or, for `Fx0A`, `pc + 2` or nothing. -/
  | other
deriving DecidableEq, Repr

/-- The kind of each instruction in the table of R83. -/
def pcKind : Instr → PcKind
  | .seImm _ _ => .skip
  | .sneImm _ _ => .skip
  | .seReg _ _ => .skip
  | .sneReg _ _ => .skip
  | .skp _ => .skip
  | .sknp _ => .skip
  | .jp _ => .other
  | .jpV0 _ => .other
  | .call _ => .other
  | .ret => .other
  | .ldVxK _ => .other
  | .cls => .sequential
  | .ldImm _ _ => .sequential
  | .addImm _ _ => .sequential
  | .ldReg _ _ => .sequential
  | .orReg _ _ => .sequential
  | .andReg _ _ => .sequential
  | .xorReg _ _ => .sequential
  | .addReg _ _ => .sequential
  | .subReg _ _ => .sequential
  | .shr _ _ => .sequential
  | .subnReg _ _ => .sequential
  | .shl _ _ => .sequential
  | .ldI _ => .sequential
  | .rnd _ _ => .sequential
  | .drw _ _ _ => .sequential
  | .ldVxDT _ => .sequential
  | .ldDTVx _ => .sequential
  | .ldSTVx _ => .sequential
  | .addI _ => .sequential
  | .ldF _ => .sequential
  | .ldB _ => .sequential
  | .stRegs _ => .sequential
  | .ldRegs _ => .sequential

end Sys2Proof.Machine
end

