-- ==== Sys2Proof/Certificates/Slice0/Obligations.lean ====
section
/-!
DEFINITION. The statements for the provers, from the spec's numbered rules. A docstring says what is stated; the rules it
formalises or rests on are named after it. Where a clause rests on one of the spec's own decisions (D<n>) or on a choice
of the model, the docstring says so and names the log entry.
-/

open Sys2Proof Sys2Proof.Machine

/-! ### Encoding (30_encoding.md) -/

/-- For every instruction, with every operand at every value of its field: decode (encode i) = i. No bit of an encoding is
dropped. The numeric assignment is the spec's own decision D1 (log 3). [derived: 30_encoding.md R61, 30_encoding.md
R62, 30_encoding.md R63, 30_encoding.md R64, 30_encoding.md R66] -/
def Obligations.DecodeOfEncodeIsInstr : Prop :=
  ∀ i : Instr, decode (encode i) = .ok i

/-- For every word that decodes to an instruction, encoding that instruction gives the word: every bit of a word is fixed
by its row or carried by an operand. The y field of the shifts, which the spec lets be ignored (D23), is carried too.
[derived: 30_encoding.md R61, 30_encoding.md R63, 30_encoding.md R64, 30_encoding.md R66] -/
def Obligations.EncodeOfDecodeIsWord : Prop :=
  ∀ (w : Word) (i : Instr), decode w = .ok i → encode i = w

/-- For every word w and every row of the opcode table: w and mask = match if and only if w decodes to an instruction of
that row; and no word matches two rows. The numbers of the table are the spec's decision D1 (log 3). [derived:
30_encoding.md R63, 30_encoding.md R64] -/
def Obligations.DecodeAgreesWithOpcodeTable : Prop :=
  (∀ (w : Word), ∀ r ∈ opcodeTable, (w &&& r.mask = r.bits ↔ ∃ i, decode w = .ok i ∧ i.rowNum = r.num)) ∧
  (∀ (w : Word), ∀ r ∈ opcodeTable, ∀ r' ∈ opcodeTable, w &&& r.mask = r.bits → w &&& r'.mask = r'.bits → r = r')

/-- A word is unknown if and only if it lies in one of the six regions of R65, written with the word as a number; the
decoder's error carries the word itself. The strictness in families 0, 5 and 9 is the spec's decision D2 (log 4). The
counts of R65 are not stated here. [derived: 30_encoding.md R65, 30_encoding.md R64] -/
def Obligations.UnknownWordsAreTheListedRegions : Prop :=
  (∀ (w : Word) (e : DecodeError), decode w = .error e → e = .unknownInstruction w) ∧
  ∀ w : Word, decode w = .error (.unknownInstruction w) ↔
    (w.toNat / 0x1000 = 0x0 ∧ w.toNat ≠ 0x00E0 ∧ w.toNat ≠ 0x00EE) ∨
    (w.toNat / 0x1000 = 0x5 ∧ w.toNat % 0x10 ≠ 0) ∨
    (w.toNat / 0x1000 = 0x8 ∧ w.toNat % 0x10 ∈ [0x8, 0x9, 0xA, 0xB, 0xC, 0xD, 0xF]) ∨
    (w.toNat / 0x1000 = 0x9 ∧ w.toNat % 0x10 ≠ 0) ∨
    (w.toNat / 0x1000 = 0xE ∧ w.toNat % 0x100 ∉ [0x9E, 0xA1]) ∨
    (w.toNat / 0x1000 = 0xF ∧
      w.toNat % 0x100 ∉ [0x07, 0x0A, 0x15, 0x18, 0x1E, 0x29, 0x33, 0x55, 0x65])

/-- At least one word of each of the sixteen families (a family is a high nibble, R8), written out from R63 and the
examples of the instruction rules, decodes to the instruction the spec gives it, and one word that R65 lists is
unknown. Every clause rests on the numeric assignment, the spec's own decision D1 from general knowledge (log 3,
PRESUMED), and the last on D2 (log 4). A sanity statement. [derived: 30_encoding.md R63, 30_encoding.md R65,
95_test_vectors.md section 2] -/
def Obligations.SampleWordsDecodeAsWritten : Prop :=
  decode 0x00E0 = .ok .cls ∧ decode 0x00EE = .ok .ret ∧ decode 0x1ABC = .ok (.jp 0xABC) ∧
  decode 0x2ABC = .ok (.call 0xABC) ∧ decode 0x332A = .ok (.seImm 3 0x2A) ∧ decode 0x4142 = .ok (.sneImm 1 0x42) ∧
  decode 0x7F01 = .ok (.addImm 15 0x01) ∧ decode 0x9120 = .ok (.sneReg 1 2) ∧ decode 0xA2F0 = .ok (.ldI 0x2F0) ∧
  decode 0xC10F = .ok (.rnd 1 0x0F) ∧ decode 0x5120 = .ok (.seReg 1 2) ∧
  decode 0x6A2C = .ok (.ldImm 10 0x2C) ∧ decode 0x8F14 = .ok (.addReg 15 1) ∧ decode 0x812E = .ok (.shl 1 2) ∧
  decode 0xB300 = .ok (.jpV0 0x300) ∧ decode 0xD12F = .ok (.drw 1 2 0xF) ∧ decode 0xE1A1 = .ok (.sknp 1) ∧
  decode 0xF30A = .ok (.ldVxK 3) ∧ decode 0xF255 = .ok (.stRegs 2) ∧ decode 0x5121 = .error (.unknownInstruction 0x5121)

/-! ### The cycle (40_cycle.md, 60_exceptions.md) -/

/-- When the two bytes at pc lie in memory and decode to an instruction i, one step is exec of i at that state followed by
the timer tick; where exec faults, the step is that fault and nothing ticks. It never refuses (ExecNeverRefuses).
[derived: 40_cycle.md R80, 40_cycle.md R82, 40_cycle.md R86] -/
def Obligations.StepRunsDecodedInstruction : Prop :=
  ∀ (s : State) (i : Instr), s.pc.toNat + 1 ≤ 4095 →
    decode (s.mem.read s.pc.toNat ++ s.mem.read (s.pc.toNat + 1)) = .ok i →
    (∀ t, exec i s = .next t → step s = .next t.timerTick) ∧
    (∀ f, exec i s = .fault f → step s = .fault f)

/-- With pc + 1 at most 4095 the fetched word is mem[pc] * 256 + mem[pc + 1], with no alignment condition; with pc from
0xFFF up the cycle is MemoryOutOfBounds of pc if pc is above 4095, else of 4096. That the access is fatal is the
spec's decision D7 (log 8). [derived: 40_cycle.md R81, 20_memory.md R43, 20_memory.md R45, 20_memory.md R42] -/
def Obligations.FetchIsBigEndianAndBounded : Prop :=
  ∀ s : State,
    (s.pc.toNat + 1 ≤ 4095 → ∃ w, s.fetch = .ok w ∧
      w.toNat = (s.mem.read s.pc.toNat).toNat * 256 + (s.mem.read (s.pc.toNat + 1)).toNat) ∧
    (0xFFF ≤ s.pc.toNat → ∃ a : Word, step s = .fault (.memoryOutOfBounds a) ∧
      a.toNat = if 4095 < s.pc.toNat then s.pc.toNat else 4096)

/-- If the fetched word decodes to no instruction, the cycle is UnknownInstruction of that very word, and the cycle
returns that error to the host with pc at the word. That all other state is kept too is FaultingCycleChangesNothing.
[stated: R191] -/
def Obligations.UnknownInstructionIsFatal : Prop :=
  ∀ (s : State) (w : Word), s.fetch = .ok w → (∀ i, decode w ≠ .ok i) →
    step s = .fault (.unknownInstruction w) ∧ ∀ r,
      (runCycle r s).2 = .fatal (.unknownInstruction w) ∧ (runCycle r s).1.pc = s.pc

/-- If a step answers t, its instruction answered some u and t is u but for the timers: DT and ST one less with a floor of
0, and sound raised exactly if ST was 1 in u (or it was raised already). Waiting cycles are included (the spec's
decision D12, log 13). [derived: 40_cycle.md R86, 40_cycle.md R80, 10_state.md R19] -/
def Obligations.TimersTickAtTheEndOfEveryCycle : Prop :=
  ∀ s t : State, step s = .next t → ∃ (i : Instr) (u : State), s.fetchInstr = .ok i ∧ exec i s = .next u ∧
    t = { u with DT := t.DT, ST := t.ST, sound := t.sound } ∧ t.DT.toNat = u.DT.toNat - 1 ∧
    t.ST.toNat = u.ST.toNat - 1 ∧ (t.sound = true ↔ u.sound = true ∨ u.ST.toNat = 1)

/-- Whenever RunCycle returns a fatal error, the state it leaves is the state it began with, and that error is the fault
of step with the random byte supplied. The spec's decision D9 (log 10). [derived: 40_cycle.md R85, 60_exceptions.md
R200, 50_host_interface.md R177] -/
def Obligations.FaultingCycleChangesNothing : Prop :=
  ∀ (r : Byte) (s : State) (f : Fault), (runCycle r s).2 = .fatal f →
    (runCycle r s).1 = s ∧ step { s with rnd := r } = .fault f

/-- If a step faults, then after any write of the keys, of the two flags and of the random byte it faults again with the
same error and information word: no fault condition reads them. The spec's decisions D9 and D24 (log 10). [derived:
60_exceptions.md R201, 40_cycle.md R85] -/
def Obligations.FaultRepeatsWhateverTheHostWrites : Prop :=
  ∀ (s : State) (f : Fault) (k : Vector Bool 16) (a b : Bool) (r : Byte), step s = .fault f →
    step { s with key := k, redraw := a, sound := b, rnd := r } = .fault f

/-- If a step answers t, then from the same state with any other redraw and sound flags it answers t but for those two
flags. [derived: 50_host_interface.md R174, 10_state.md R20] -/
def Obligations.HostFlagsDoNotAffectExecution : Prop :=
  ∀ (s t : State) (a b : Bool), step s = .next t → ∃ u, step { s with redraw := a, sound := b } = .next u ∧
    u = { t with redraw := u.redraw, sound := u.sound }

/-- For every instruction, in every state, exec answers a next state or one of the five fatal errors, never a refusal.
[derived: 30_encoding.md R63, 40_cycle.md R80] -/
def Obligations.ExecNeverRefuses : Prop :=
  ∀ (i : Instr) (s : State) (r : Refusal), exec i s ≠ .refused r

/-- exec faults with f if and only if the instruction is one of the eight that can raise and its own condition holds: CALL
at sp = 16, RET at sp = 0, DRW with n at least 1, LD B, LD [I] and LD Vx,[I] with an address above 4095 (f carries
max(I, 4096)), SKP and SKNP with Vx above 15 (f carries Vx). No other instruction faults. The spec's decisions D6, D7,
D8 and D17 (log 7, 8, 9, 22). [derived: 60_exceptions.md R190, 60_exceptions.md R192, 60_exceptions.md R193,
60_exceptions.md R194, 60_exceptions.md R195, 60_exceptions.md R199] -/
def Obligations.FatalConditionsAreExact : Prop :=
  ∀ (i : Instr) (s : State) (f : Fault), exec i s = .fault f ↔
    (∃ nnn, i = .call nnn ∧ s.sp.val = 16 ∧ f = .stackOverflow (BitVec.ofNat 16 (0x2000 + nnn.toNat))) ∨
    (i = .ret ∧ s.sp.val = 0 ∧ f = .stackUnderflow 0x00EE) ∨
    ((∃ x y n, i = .drw x y n ∧ 1 ≤ n.toNat ∧ 4095 < s.I.toNat + n.toNat - 1) ∧
      f = .memoryOutOfBounds (BitVec.ofNat 16 (max s.I.toNat 4096))) ∨
    ((∃ x, i = .ldB x) ∧ 4095 < s.I.toNat + 2 ∧ f = .memoryOutOfBounds (BitVec.ofNat 16 (max s.I.toNat 4096))) ∨
    ((∃ x : RegIdx, (i = .stRegs x ∨ i = .ldRegs x) ∧ 4095 < s.I.toNat + x.val) ∧
      f = .memoryOutOfBounds (BitVec.ofNat 16 (max s.I.toNat 4096))) ∨
    (∃ x : RegIdx, (i = .skp x ∨ i = .sknp x) ∧ 15 < s.V[x].toNat ∧
      f = .keyIndexOutOfRange (BitVec.ofNat 16 s.V[x].toNat))

/-! ### Frames over all instructions (R7, R10, R12, R83) -/

/-- When exec answers a next state: mem changes only under LD B and LD [I]; I only under LD I, ADD I, LD F, LD [I], LD
Vx,[I]; the stack only under CALL; sp only under CALL and RET; fb and redraw only under CLS and DRW; DT only under LD
DT; ST only under LD ST; key and sound under none; the model's own random input only under RND (log 2). [derived:
10_state.md R10, 00_scope.md R7] -/
def Obligations.OnlyListedInstructionsWriteEachElement : Prop :=
  ∀ (i : Instr) (s t : State), exec i s = .next t →
    (t.mem ≠ s.mem → ∃ x, i = .ldB x ∨ i = .stRegs x) ∧
    (t.I ≠ s.I → (∃ nnn, i = .ldI nnn) ∨ ∃ x, i = .addI x ∨ i = .ldF x ∨ i = .stRegs x ∨ i = .ldRegs x) ∧
    (t.stack ≠ s.stack → ∃ nnn, i = .call nnn) ∧
    (t.sp ≠ s.sp → i = .ret ∨ ∃ nnn, i = .call nnn) ∧
    (t.fb ≠ s.fb ∨ t.redraw ≠ s.redraw → i = .cls ∨ ∃ x y n, i = .drw x y n) ∧
    (t.DT ≠ s.DT → ∃ x, i = .ldDTVx x) ∧
    (t.ST ≠ s.ST → ∃ x, i = .ldSTVx x) ∧
    t.key = s.key ∧ t.sound = s.sound ∧
    (t.rnd ≠ s.rnd ∨ t.drawn ≠ s.drawn → ∃ x nn, i = .rnd x nn)

/-- When exec answers a next state, every register that the instruction's rule does not name as a destination keeps its
value, but for VF under the seven flag-writing instructions. [derived: 00_scope.md R7, 10_state.md R11, 10_state.md
R12, 70_reset_and_hazards.md R225] -/
def Obligations.RegistersOutsideTheDestinationsAreKept : Prop :=
  ∀ (i : Instr) (s t : State) (k : RegIdx), exec i s = .next t → namesDest k i = false →
    (k = 15 → flagWriter i = false) → t.V[k] = s.V[k]

/-- Whenever one of the seven instructions of R12 answers a next state, VF is 0 or 1 in it, whatever registers it names.
That the flag survives with x = F is the spec's decision D10 (log 11). [derived: 10_state.md R12, 40_cycle.md R84] -/
def Obligations.FlagWritersLeaveZeroOrOneInVF : Prop :=
  ∀ (i : Instr) (s t : State), flagWriter i = true → exec i s = .next t → t.V[(15 : RegIdx)] = 0 ∨ t.V[(15 : RegIdx)] = 1

/-- When exec answers a next state: a sequential instruction of R83 leaves pc + 2, a skip pc + 4 or pc + 2, and LD Vx,K pc
+ 2 or pc. The targets of jump, call and return are in their own statements. [derived: 40_cycle.md R83, 10_state.md
R14] -/
def Obligations.ProgramCounterPolicy : Prop :=
  ∀ (i : Instr) (s t : State), exec i s = .next t →
    (pcKind i = .sequential → t.pc = s.pc + 2) ∧
    (pcKind i = .skip → t.pc = s.pc + 4 ∨ t.pc = s.pc + 2) ∧
    (∀ x, i = .ldVxK x → t.pc = s.pc + 2 ∨ t.pc = s.pc)

/-- For every other instruction that answers a next state, every address reads as before. [derived: 20_memory.md R40,
20_memory.md R47, 00_scope.md R7] -/
def Obligations.NonStoringInstructionsKeepEveryByte : Prop :=
  ∀ (i : Instr) (s t : State), (∀ x, i ≠ .ldB x) → (∀ x, i ≠ .stRegs x) → exec i s = .next t →
    ∀ a, t.mem.read a = s.mem.read a

/-- If a step answers t: the keys are as before, FONT (the model's own parameter field, log 1) is as before, and a raised
redraw or sound flag is still raised. [derived: 10_state.md R18, 10_state.md R20, 10_state.md R23] -/
def Obligations.CycleKeepsKeysFontAndRaisedFlags : Prop :=
  ∀ s t : State, step s = .next t → t.key = s.key ∧ t.mem.font = s.mem.font ∧
    (s.redraw = true → t.redraw = true) ∧ (s.sound = true → t.sound = true)

/-! ### Control transfer and skips (41_control_flow.md) -/

/-- With sp = k + 1, RET answers a next state in which sp = k and pc is entry k plus 2 modulo 65536, and nothing else has
changed, the entry included; with sp = 0 it is StackUnderflow(0x00EE). The slot and the fault are the spec's decisions
D13 and D6 (log 14, 7). [derived: 41_control_flow.md R100, 10_state.md R15] -/
def Obligations.RetPopsTheTopEntryAndAddsTwo : Prop :=
  ∀ s : State,
    (∀ k : Fin 16, s.sp.val = k.val + 1 → ∃ t, exec .ret s = .next t ∧ t = { s with sp := t.sp, pc := t.pc } ∧
      t.sp.val = k.val ∧ t.pc.toNat = (s.stack[k].toNat + 2) % 65536) ∧
    (s.sp.val = 0 → exec .ret s = .fault (.stackUnderflow 0x00EE))

/-- JP nnn answers the state with pc = nnn and nothing else changed; JP V0, nnn the state with pc = nnn + V0, a sum not
reduced to 12 bits. [stated: R101, R107] -/
def Obligations.JumpsWriteTheirTarget : Prop :=
  ∀ (s : State) (nnn : Addr),
    (∃ t, exec (.jp nnn) s = .next t ∧ t = { s with pc := t.pc } ∧ t.pc.toNat = nnn.toNat) ∧
    (∃ t, exec (.jpV0 nnn) s = .next t ∧ t = { s with pc := t.pc } ∧
      t.pc.toNat = nnn.toNat + s.V[(0 : RegIdx)].toNat)

/-- With sp = k below 16, CALL nnn answers a next state in which entry k is the call's own pc, every other entry is kept,
sp = k + 1, pc = nnn, and nothing else has changed; with sp = 16 it is StackOverflow of the word 0x2nnn. The slot and
the fault are the spec's decisions D13 and D6 (log 14, 7). [derived: 41_control_flow.md R102, 10_state.md R15] -/
def Obligations.CallPushesItsOwnAddress : Prop :=
  ∀ (s : State) (nnn : Addr),
    (∀ k : Fin 16, s.sp.val = k.val → ∃ t, exec (.call nnn) s = .next t ∧
      t = { s with stack := t.stack, sp := t.sp, pc := t.pc } ∧ t.stack[k] = s.pc ∧
      (∀ j : Fin 16, j ≠ k → t.stack[j] = s.stack[j]) ∧ t.sp.val = k.val + 1 ∧ t.pc.toNat = nnn.toNat) ∧
    (s.sp.val = 16 → exec (.call nnn) s = .fault (.stackOverflow (BitVec.ofNat 16 (0x2000 + nnn.toNat))))

/-- With room on the stack, executing CALL nnn and then RET in the state it leaves answers the original state with pc + 2,
but for the entry the call wrote, entry sp, which holds the call's pc and which the pop does not clear; every other
entry is kept. The slot, and that the entry stays, are the spec's decision D13 (log 14). [derived: 41_control_flow.md
R100, 41_control_flow.md R102, 10_state.md R15, 90_conflicts.md C1] -/
def Obligations.CallThenRetResumesAfterTheCall : Prop :=
  ∀ (s : State) (nnn : Addr), s.sp.val < 16 → ∃ t u, exec (.call nnn) s = .next t ∧ exec .ret t = .next u ∧
    u = { s with stack := u.stack, pc := s.pc + 2 } ∧
    ∀ j : Fin 16, (j.val = s.sp.val → u.stack[j] = s.pc) ∧ (j.val ≠ s.sp.val → u.stack[j] = s.stack[j])

/-- SE Vx, nn answers the state with pc + 4 if Vx = nn else pc + 2, SNE Vx, nn the other way round; nothing else changes.
[stated: R103, R104] -/
def Obligations.SkipsOnALiteral : Prop :=
  ∀ (s : State) (x : RegIdx) (nn : Byte),
    exec (.seImm x nn) s = .next { s with pc := if s.V[x].toNat = nn.toNat then s.pc + 4 else s.pc + 2 } ∧
    exec (.sneImm x nn) s = .next { s with pc := if s.V[x].toNat ≠ nn.toNat then s.pc + 4 else s.pc + 2 }

/-- SE Vx, Vy answers the state with pc + 4 if Vx = Vy else pc + 2, SNE Vx, Vy the other way round; nothing else changes;
x = y included. [stated: R105, R106] -/
def Obligations.SkipsOnTwoRegisters : Prop :=
  ∀ (s : State) (x y : RegIdx),
    exec (.seReg x y) s = .next { s with pc := if s.V[x].toNat = s.V[y].toNat then s.pc + 4 else s.pc + 2 } ∧
    exec (.sneReg x y) s = .next { s with pc := if s.V[x].toNat ≠ s.V[y].toNat then s.pc + 4 else s.pc + 2 }

/-! ### Register loads, arithmetic and logic (42_alu.md) -/

/-- LD Vx, nn answers a next state with Vx = nn, LD Vx, Vy one with Vx = the old Vy; every other register, VF among them
unless x = F, and all other state is kept, and pc grows by 2. [stated: R120, R122] -/
def Obligations.LoadsIntoARegister : Prop :=
  ∀ (s : State) (x y : RegIdx) (nn : Byte),
    (∃ t, exec (.ldImm x nn) s = .next t ∧ t = { s with V := t.V, pc := s.pc + 2 } ∧ t.V[x] = nn ∧
      ∀ k : RegIdx, k ≠ x → t.V[k] = s.V[k]) ∧
    (∃ t, exec (.ldReg x y) s = .next t ∧ t = { s with V := t.V, pc := s.pc + 2 } ∧ t.V[x] = s.V[y] ∧
      ∀ k : RegIdx, k ≠ x → t.V[k] = s.V[k])

/-- ADD Vx, nn answers a next state with Vx = (old Vx + nn) mod 256, every other register kept, VF among them unless x =
F, all other state kept, pc + 2. [stated: R121] -/
def Obligations.AddLiteralWrapsWithoutAFlag : Prop :=
  ∀ (s : State) (x : RegIdx) (nn : Byte), ∃ t, exec (.addImm x nn) s = .next t ∧
    t = { s with V := t.V, pc := s.pc + 2 } ∧ t.V[x].toNat = (s.V[x].toNat + nn.toNat) % 256 ∧
    ∀ k : RegIdx, k ≠ x → t.V[k] = s.V[k]

/-- OR, AND and XOR Vx, Vy answer a next state whose Vx is the bitwise or, and, exclusive or of the two old values, every
other register kept, VF among them unless x = F, all other state kept, pc + 2. [stated: R123, R124, R125] -/
def Obligations.LogicInstructionsLeaveVFAlone : Prop :=
  ∀ (s : State) (x y : RegIdx),
    (∃ t, exec (.orReg x y) s = .next t ∧ t = { s with V := t.V, pc := s.pc + 2 } ∧
      (∀ j, t.V[x].getLsbD j = (s.V[x].getLsbD j || s.V[y].getLsbD j)) ∧ ∀ k : RegIdx, k ≠ x → t.V[k] = s.V[k]) ∧
    (∃ t, exec (.andReg x y) s = .next t ∧ t = { s with V := t.V, pc := s.pc + 2 } ∧
      (∀ j, t.V[x].getLsbD j = (s.V[x].getLsbD j && s.V[y].getLsbD j)) ∧ ∀ k : RegIdx, k ≠ x → t.V[k] = s.V[k]) ∧
    (∃ t, exec (.xorReg x y) s = .next t ∧ t = { s with V := t.V, pc := s.pc + 2 } ∧
      (∀ j, t.V[x].getLsbD j = (s.V[x].getLsbD j ^^ s.V[y].getLsbD j)) ∧ ∀ k : RegIdx, k ≠ x → t.V[k] = s.V[k])

/-- ADD Vx, Vy answers a next state in which VF = 1 if the sum of the two old values is above 255 else 0, for every x; Vx
= the sum mod 256 if x is not F; all other registers and state are kept, pc + 2. That the flag survives with x = F is
the spec's decision D10 (log 11). [derived: 42_alu.md R126, 40_cycle.md R84] -/
def Obligations.AddRegistersWithCarry : Prop :=
  ∀ (s : State) (x y : RegIdx), ∃ t, exec (.addReg x y) s = .next t ∧ t = { s with V := t.V, pc := s.pc + 2 } ∧
    (x ≠ 15 → t.V[x].toNat = (s.V[x].toNat + s.V[y].toNat) % 256) ∧
    t.V[(15 : RegIdx)].toNat = (if 255 < s.V[x].toNat + s.V[y].toNat then 1 else 0) ∧
    ∀ k : RegIdx, k ≠ x → k ≠ 15 → t.V[k] = s.V[k]

/-- SUB leaves Vx - Vy and SUBN Vy - Vx, modulo 256, in Vx if x is not F, and VF = 1 exactly if the minuend is at least
the subtrahend, for every x; all other registers and state are kept, pc + 2. That the flag survives with x = F is the
spec's decision D10 (log 11). [derived: 42_alu.md R127, 42_alu.md R129, 40_cycle.md R84] -/
def Obligations.SubtractionsWithNoBorrowFlag : Prop :=
  ∀ (s : State) (x y : RegIdx),
    (∃ t, exec (.subReg x y) s = .next t ∧ t = { s with V := t.V, pc := s.pc + 2 } ∧
      (x ≠ 15 → t.V[x].toNat = if s.V[y].toNat ≤ s.V[x].toNat then s.V[x].toNat - s.V[y].toNat
        else s.V[x].toNat + 256 - s.V[y].toNat) ∧
      t.V[(15 : RegIdx)].toNat = (if s.V[y].toNat ≤ s.V[x].toNat then 1 else 0) ∧
      ∀ k : RegIdx, k ≠ x → k ≠ 15 → t.V[k] = s.V[k]) ∧
    (∃ t, exec (.subnReg x y) s = .next t ∧ t = { s with V := t.V, pc := s.pc + 2 } ∧
      (x ≠ 15 → t.V[x].toNat = if s.V[x].toNat ≤ s.V[y].toNat then s.V[y].toNat - s.V[x].toNat
        else s.V[y].toNat + 256 - s.V[x].toNat) ∧
      t.V[(15 : RegIdx)].toNat = (if s.V[x].toNat > s.V[y].toNat then 0 else 1) ∧
      ∀ k : RegIdx, k ≠ x → k ≠ 15 → t.V[k] = s.V[k])

/-- SHR leaves Vx div 2 and VF = Vx mod 2, SHL leaves 2 * Vx mod 256 and VF = Vx div 128, of the old Vx (the result part
if x is not F); Vy is not used; all other registers and state are kept, pc + 2. The spec's decisions D10 and D23 (log
11, 19). [derived: 42_alu.md R128, 42_alu.md R130, 30_encoding.md R66, 40_cycle.md R84] -/
def Obligations.ShiftsByOneKeepTheLostBit : Prop :=
  ∀ (s : State) (x y : RegIdx),
    (∃ t, exec (.shr x y) s = .next t ∧ t = { s with V := t.V, pc := s.pc + 2 } ∧
      (x ≠ 15 → t.V[x].toNat = s.V[x].toNat / 2) ∧ t.V[(15 : RegIdx)].toNat = s.V[x].toNat % 2 ∧
      ∀ k : RegIdx, k ≠ x → k ≠ 15 → t.V[k] = s.V[k]) ∧
    (∃ t, exec (.shl x y) s = .next t ∧ t = { s with V := t.V, pc := s.pc + 2 } ∧
      (x ≠ 15 → t.V[x].toNat = s.V[x].toNat * 2 % 256) ∧ t.V[(15 : RegIdx)].toNat = s.V[x].toNat / 128 ∧
      ∀ k : RegIdx, k ≠ x → k ≠ 15 → t.V[k] = s.V[k])

/-- RND Vx, nn answers a next state with Vx = rnd and nn, where rnd is the free byte of the state (log 2), so Vx has no
bit that nn has clear; every other register and all other state are kept but for the model's random input, pc + 2.
[derived: 42_alu.md R131, 40_cycle.md R89] -/
def Obligations.RndMasksTheSuppliedByte : Prop :=
  ∀ (s : State) (x : RegIdx) (nn : Byte), ∃ t, exec (.rnd x nn) s = .next t ∧
    t = { s with V := t.V, pc := s.pc + 2, rnd := t.rnd, drawn := t.drawn } ∧
    t.V[x] = s.rnd &&& nn ∧ t.V[x] &&& ~~~nn = 0 ∧ ∀ k : RegIdx, k ≠ x → t.V[k] = s.V[k]

/-! ### Index register, loads and stores (43_index_memory.md) -/

/-- LD I, nnn answers a next state with I = nnn, zero-extended, pc + 2, and nothing else changed. [stated: R140] -/
def Obligations.LoadIndexWritesOnlyI : Prop :=
  ∀ (s : State) (nnn : Addr), ∃ t, exec (.ldI nnn) s = .next t ∧ t = { s with I := t.I, pc := s.pc + 2 } ∧
    t.I.toNat = nnn.toNat

/-- ADD I, Vx answers a next state with I = (I + Vx) mod 65536, VF = 1 if that is above 0xFFF else 0 for every x, every
other register and all other state kept, pc + 2. The 16-bit wrap and the flag of the wrapped sum are the spec's
decision D11, x = F its decision D10 (log 12, 11). [derived: 43_index_memory.md R141, 40_cycle.md R84] -/
def Obligations.AddToIndexAndItsFlag : Prop :=
  ∀ (s : State) (x : RegIdx), ∃ t, exec (.addI x) s = .next t ∧ t = { s with V := t.V, I := t.I, pc := s.pc + 2 } ∧
    t.I.toNat = (s.I.toNat + s.V[x].toNat) % 65536 ∧
    t.V[(15 : RegIdx)].toNat = (if 0xFFF < (s.I.toNat + s.V[x].toNat) % 65536 then 1 else 0) ∧
    ∀ k : RegIdx, k ≠ 15 → t.V[k] = s.V[k]

/-- LD F, Vx answers a next state with I = Vx * 5, pc + 2 and nothing else changed, for every Vx (the spec's decision D22,
log 19); and if Vx is a digit 0 to 15 and addresses 0 to 79 still hold FONT, whatever the rest of memory holds, the
five bytes from I are the glyph's bytes of FONT, whatever FONT is (log 1). [derived: 43_index_memory.md R142,
10_state.md R23, 95_test_vectors.md S5] -/
def Obligations.PointAtGlyph : Prop :=
  ∀ (s : State) (x : RegIdx), ∃ t, exec (.ldF x) s = .next t ∧ t = { s with I := t.I, pc := s.pc + 2 } ∧
    t.I.toNat = s.V[x].toNat * 5 ∧
    ((∀ a : Fin 80, s.mem.read a.val = s.mem.font[a]) → ∀ (d : Fin 16) (j : Fin 5), s.V[x].toNat = d.val →
      some (t.mem.read (t.I.toNat + j.val)) = s.mem.font[5 * d.val + j.val]?)

/-- With memory canonical and I + 2 at most 4095, LD B answers a next state in which the three bytes from I are the
decimal digits of Vx, every other byte reads as before, FONT and the canonical form are kept, I and all other state
are unchanged, pc + 2. Out of bounds it is fatal (FatalConditionsAreExact). [derived: 43_index_memory.md R143,
20_memory.md R44, 20_memory.md R42] -/
def Obligations.StoreDecimalDigits : Prop :=
  ∀ (s : State) (x : RegIdx), s.mem.wf = true → s.base + 2 ≤ 4095 → ∃ t, exec (.ldB x) s = .next t ∧
    t = { s with mem := t.mem, pc := s.pc + 2 } ∧
    (t.mem.read s.base).toNat = s.V[x].toNat / 100 ∧
    (t.mem.read (s.base + 1)).toNat = s.V[x].toNat / 10 % 10 ∧
    (t.mem.read (s.base + 2)).toNat = s.V[x].toNat % 10 ∧
    (∀ a, a < s.base ∨ s.base + 2 < a → t.mem.read a = s.mem.read a) ∧ t.mem.wf = true ∧ t.mem.font = s.mem.font

/-- With memory canonical and I + x at most 4095, LD [I], Vx answers a next state in which byte I + k is V[k] for k = 0 to
x, every other byte reads as before, I = (I + x + 1) mod 65536 (the spec's decision D11, log 12), FONT and the
canonical form are kept, all other state is unchanged, pc + 2. [derived: 43_index_memory.md R144, 20_memory.md R44,
20_memory.md R42] -/
def Obligations.StoreRegisterBlock : Prop :=
  ∀ (s : State) (x : RegIdx), s.mem.wf = true → s.base + x.val ≤ 4095 → ∃ t, exec (.stRegs x) s = .next t ∧
    t = { s with mem := t.mem, I := t.I, pc := s.pc + 2 } ∧
    (∀ k : RegIdx, k ≤ x → t.mem.read (s.base + k.val) = s.V[k]) ∧
    (∀ a, a < s.base ∨ s.base + x.val < a → t.mem.read a = s.mem.read a) ∧
    t.I.toNat = (s.I.toNat + x.val + 1) % 65536 ∧ t.mem.wf = true ∧ t.mem.font = s.mem.font

/-- With I + x at most 4095, LD Vx, [I] answers a next state in which V[k] is byte I + k for k = 0 to x, the registers
above Vx are kept, I = (I + x + 1) mod 65536 (the spec's decision D11, log 12), all other state is unchanged, memory
included, pc + 2. [derived: 43_index_memory.md R145, 20_memory.md R44, 20_memory.md R42] -/
def Obligations.LoadRegisterBlock : Prop :=
  ∀ (s : State) (x : RegIdx), s.base + x.val ≤ 4095 → ∃ t, exec (.ldRegs x) s = .next t ∧
    t = { s with V := t.V, I := t.I, pc := s.pc + 2 } ∧
    (∀ k : RegIdx, k ≤ x → t.V[k] = s.mem.read (s.base + k.val)) ∧
    (∀ k : RegIdx, x < k → t.V[k] = s.V[k]) ∧
    t.I.toNat = (s.I.toNat + x.val + 1) % 65536

/-- With memory canonical and the block in bounds: after LD [I], Vx, resetting I to its old value and overwriting all
registers with anything, LD Vx, [I] restores V0 to Vx. [derived: 43_index_memory.md R144, 43_index_memory.md R145,
70_reset_and_hazards.md R229] -/
def Obligations.StoredBlockLoadsBack : Prop :=
  ∀ (s : State) (x : RegIdx) (V' : Vector Byte 16), s.mem.wf = true → s.base + x.val ≤ 4095 →
    ∃ t u, exec (.stRegs x) s = .next t ∧ exec (.ldRegs x) { t with I := s.I, V := V' } = .next u ∧
      ∀ k : RegIdx, k ≤ x → u.V[k] = s.V[k]

/-- With memory canonical, the next instruction at pc + 2 inside memory and the stored block in bounds: the state that LD
[I], Vx or LD B, Vx leaves fetches a word whose each byte is the stored one where the store covers its address (V[k]
at I + k; the digits at I, I + 1, I + 2), and the old one where it does not. The block may cover both bytes, either or
none. [derived: 20_memory.md R51, 20_memory.md R43, 43_index_memory.md R143, 43_index_memory.md R144] -/
def Obligations.StoreIsSeenByTheNextFetch : Prop :=
  ∀ (s : State) (x : RegIdx), s.mem.wf = true → s.pc.toNat + 3 ≤ 4095 →
    (s.base + x.val ≤ 4095 → ∃ t hi lo, exec (.stRegs x) s = .next t ∧ t.fetch = .ok (hi ++ lo) ∧
      (∀ k : RegIdx, k ≤ x → (s.base + k.val = s.pc.toNat + 2 → hi = s.V[k]) ∧
        (s.base + k.val = s.pc.toNat + 3 → lo = s.V[k])) ∧
      (s.pc.toNat + 2 < s.base ∨ s.base + x.val < s.pc.toNat + 2 → hi = s.mem.read (s.pc.toNat + 2)) ∧
      (s.pc.toNat + 3 < s.base ∨ s.base + x.val < s.pc.toNat + 3 → lo = s.mem.read (s.pc.toNat + 3))) ∧
    (s.base + 2 ≤ 4095 → ∃ t hi lo, exec (.ldB x) s = .next t ∧ t.fetch = .ok (hi ++ lo) ∧
      (s.base = s.pc.toNat + 2 → hi.toNat = s.V[x].toNat / 100 ∧ lo.toNat = s.V[x].toNat / 10 % 10) ∧
      (s.base + 1 = s.pc.toNat + 2 → hi.toNat = s.V[x].toNat / 10 % 10 ∧ lo.toNat = s.V[x].toNat % 10) ∧
      (s.base + 2 = s.pc.toNat + 2 → hi.toNat = s.V[x].toNat % 10) ∧
      (s.base = s.pc.toNat + 3 → lo.toNat = s.V[x].toNat / 100) ∧
      (s.pc.toNat + 2 < s.base ∨ s.base + 2 < s.pc.toNat + 2 → hi = s.mem.read (s.pc.toNat + 2)) ∧
      (s.pc.toNat + 3 < s.base ∨ s.base + 2 < s.pc.toNat + 3 → lo = s.mem.read (s.pc.toNat + 3)))

/-! ### Display (44_display.md) -/

/-- CLS answers a next state in which all 2048 pixels are off, redraw is set, pc grows by 2, and nothing else has changed,
VF included. [stated: R150] -/
def Obligations.ClsTurnsEveryPixelOff : Prop :=
  ∀ s : State, ∃ t, exec .cls s = .next t ∧ t = { s with fb := t.fb, redraw := true, pc := s.pc + 2 } ∧
    ∀ (r : Fin 32) (c : Fin 64), t.fb[r][c] = false

/-- If n = 0 or the n bytes from I lie in memory, DRW answers a next state in which a pixel is toggled if a set sprite bit
falls on it and kept if none does, VF = 1 if one of the toggled pixels was on else 0, redraw is set, every other
register, I, memory and all other state are kept, pc + 2; x = F and y = F included. The spec's decisions D4, D5, D10
and D26 (log 5, 6, 11, 20). [derived: 44_display.md R151, 44_display.md R152, 44_display.md R153, 40_cycle.md R84] -/
def Obligations.DrawTogglesExactlyTheSpritePixels : Prop :=
  ∀ (s : State) (x y : RegIdx) (n : Nibble), n.toNat = 0 ∨ s.base + n.toNat - 1 ≤ 4095 →
    ∃ t, exec (.drw x y n) s = .next t ∧
      t = { s with fb := t.fb, V := t.V, redraw := true, pc := s.pc + 2 } ∧
      (∀ (r : Fin 32) (c : Fin 64), (SpriteSets s x y n r c → t.fb[r][c] = !s.fb[r][c]) ∧
        (¬ SpriteSets s x y n r c → t.fb[r][c] = s.fb[r][c])) ∧
      ((∃ (r : Fin 32) (c : Fin 64), SpriteSets s x y n r c ∧ s.fb[r][c] = true) → t.V[(15 : RegIdx)] = 1) ∧
      ((¬ ∃ (r : Fin 32) (c : Fin 64), SpriteSets s x y n r c ∧ s.fb[r][c] = true) → t.V[(15 : RegIdx)] = 0) ∧
      ∀ k : RegIdx, k ≠ 15 → t.V[k] = s.V[k]

/-- If neither coordinate register is VF and the sprite bytes lie in memory, DRW done twice leaves the framebuffer it
began with, and VF is 1 after the second draw exactly if some pixel a set sprite bit falls on was off at the start.
[derived: 44_display.md R151, 95_test_vectors.md S4] -/
def Obligations.DrawTwiceRestoresTheScreen : Prop :=
  ∀ (s : State) (x y : RegIdx) (n : Nibble), x ≠ 15 → y ≠ 15 → n.toNat = 0 ∨ s.base + n.toNat - 1 ≤ 4095 →
    ∃ t u, exec (.drw x y n) s = .next t ∧ exec (.drw x y n) t = .next u ∧ u.fb = s.fb ∧
      (u.V[(15 : RegIdx)] = 1 ↔ ∃ (r : Fin 32) (c : Fin 64), SpriteSets s x y n r c ∧ s.fb[r][c] = false)

/-- The remark of R151 (g) taken literally over every framebuffer: after two draws of a sprite with a set bit on the
screen, VF = 1. The pseudocode of R151 denies it where every such pixel was on at the start: the first draw turns them
off and the second turns them on without a hit. [derived: 44_display.md R151] -/
def Obligations.SecondDrawAlwaysCollides : Prop :=
  ∀ (s t u : State) (x y : RegIdx) (n : Nibble), x ≠ 15 → y ≠ 15 → exec (.drw x y n) s = .next t →
    exec (.drw x y n) t = .next u → (∃ (r : Fin 32) (c : Fin 64), SpriteSets s x y n r c) →
    u.V[(15 : RegIdx)] = 1

/-! ### Keypad and timers (45_keypad_timers.md) -/

/-- If Vx is a key number k, SKP answers the state with pc + 4 if key k is down else pc + 2, SKNP the other way round,
nothing else changed; if Vx is above 15 both are KeyIndexOutOfRange(Vx), the spec's decision D8 (log 9). [derived:
45_keypad_timers.md R160, 45_keypad_timers.md R161, 60_exceptions.md R195] -/
def Obligations.KeySkipsReadTheNamedKey : Prop :=
  ∀ (s : State) (x : RegIdx),
    (∀ k : Fin 16, s.V[x].toNat = k.val →
      exec (.skp x) s = .next { s with pc := if s.key[k] = true then s.pc + 4 else s.pc + 2 } ∧
      exec (.sknp x) s = .next { s with pc := if s.key[k] = false then s.pc + 4 else s.pc + 2 }) ∧
    (15 < s.V[x].toNat →
      exec (.skp x) s = .fault (.keyIndexOutOfRange (BitVec.ofNat 16 s.V[x].toNat)) ∧
      exec (.sknp x) s = .fault (.keyIndexOutOfRange (BitVec.ofNat 16 s.V[x].toNat)))

/-- LD Vx, DT answers a next state with Vx = DT, every other register and all other state kept, pc + 2; and the cycle that
runs it ends with that value in Vx and DT one less, or both 0. [stated: R162] -/
def Obligations.ReadDelayTimerBeforeTheTick : Prop :=
  ∀ (s : State) (x : RegIdx), (∃ t, exec (.ldVxDT x) s = .next t ∧ t = { s with V := t.V, pc := s.pc + 2 } ∧
      t.V[x] = s.DT ∧ ∀ k : RegIdx, k ≠ x → t.V[k] = s.V[k]) ∧
    (s.fetchInstr = .ok (.ldVxDT x) → ∃ u, step s = .next u ∧ u.V[x] = s.DT ∧ u.DT.toNat = s.DT.toNat - 1)

/-- LD DT, Vx answers the state with DT = Vx, LD ST, Vx with ST = Vx, pc + 2, nothing else changed; the cycle that runs LD
DT ends with DT = Vx - 1 or 0, the cycle that runs LD ST with ST = Vx - 1 or 0, and sound raised by it exactly if Vx =
1. [stated: R164, R165] -/
def Obligations.TimerWritesTickInTheirOwnCycle : Prop :=
  ∀ (s : State) (x : RegIdx),
    exec (.ldDTVx x) s = .next { s with DT := s.V[x], pc := s.pc + 2 } ∧
    exec (.ldSTVx x) s = .next { s with ST := s.V[x], pc := s.pc + 2 } ∧
    (s.fetchInstr = .ok (.ldDTVx x) → ∃ t, step s = .next t ∧ t.DT.toNat = s.V[x].toNat - 1) ∧
    (s.fetchInstr = .ok (.ldSTVx x) → ∃ t, step s = .next t ∧ t.ST.toNat = s.V[x].toNat - 1 ∧
      (t.sound = true ↔ s.sound = true ∨ s.V[x].toNat = 1))

/-- If m is the highest key down, LD Vx, K answers a next state with Vx = m, every other register and all other state
kept, pc + 2; if no key is down it answers the very same state, and the cycle that runs it changes nothing but what
the timer tick does (the spec's decision D12, log 13). [derived: 45_keypad_timers.md R163, 40_cycle.md R86] -/
def Obligations.WaitForKeyTakesTheHighest : Prop :=
  ∀ (s : State) (x : RegIdx),
    (∀ m : Fin 16, s.key[m] = true → (∀ k : Fin 16, m < k → s.key[k] = false) →
      ∃ t, exec (.ldVxK x) s = .next t ∧ t = { s with V := t.V, pc := s.pc + 2 } ∧ t.V[x].toNat = m.val ∧
        ∀ k : RegIdx, k ≠ x → t.V[k] = s.V[k]) ∧
    ((∀ k : Fin 16, s.key[k] = false) → exec (.ldVxK x) s = .next s ∧
      (s.fetchInstr = .ok (.ldVxK x) → step s = .next s.timerTick))

/-! ### The machine's invariant (10_state.md R14, R15; log 18) -/

/-- State.reset, and the state after Initialize for every FONT and every random input, has memory in canonical form, pc at
most 0x10FE and every stack entry at most 0xFFE. [derived: 10_state.md R22, 10_state.md R14] -/
def Obligations.ResetMeetsTheInvariant : Prop :=
  State.reset.Inv ∧ ∀ (font : Vector Byte 80) (r : Byte) (d : Nat), (State.initial font r d).Inv

/-- From every state that meets the invariant, reachable or not, a step that answers a next state answers one that meets
it. So no pc sum ever wraps and a return never wraps. [derived: 10_state.md R14, 41_control_flow.md R100, 40_cycle.md
R83, 20_memory.md R42] -/
def Obligations.CycleKeepsTheInvariant : Prop :=
  ∀ s t : State, s.Inv → step s = .next t → t.Inv

/-- Initialize and Load lead from any state, for any bytes, to a state that meets the invariant; SetKeys, ClearRedraw and
ClearSound keep it. [derived: 50_host_interface.md R172, 50_host_interface.md R176] -/
def Obligations.HostOperationsKeepTheInvariant : Prop :=
  (∀ s : State, (resetMachine s).Inv) ∧ (∀ (s : State) (bytes : List Byte), (load bytes s).1.Inv) ∧
  ∀ s : State, s.Inv → (∀ k, (setKeys k s).Inv) ∧ (clearRedraw s).Inv ∧ (clearSound s).Inv

/-- Every state reachable from reset by cycles with any random bytes and by any host operations in any order has memory in
canonical form, pc at most 0x10FE and every stack entry at most 0xFFE. [derived: 10_state.md R14, 50_host_interface.md
R171, 50_host_interface.md R172] -/
def Obligations.ReachableStatesMeetTheInvariant : Prop :=
  ∀ s : State, Reachable s → s.Inv

/-! ### Reset, loader and ports (50_host_interface.md, 70_reset_and_hazards.md) -/

/-- After Initialize from any state: memory holds FONT at 0 to 79 and 0 at 80 to 4095, every register, I, every stack
entry, sp, every pixel, every key, both timers and sound are 0, pc is 512, redraw is 1. Initialize changes nothing in
State.reset (R220: it gives the same state every time). That the model's own fields font, rnd and drawn are kept is
the model's choice (log 15, log 1, log 2; DESIGN CHOICE); that Initialize is the only reset is the spec's decision
D15. [derived: 10_state.md R22, 70_reset_and_hazards.md R220] -/
def Obligations.InitializeGivesTheResetTable : Prop :=
  (∀ s t : State, resetMachine s = t →
    (∀ a : Fin 80, t.mem.read a.val = s.mem.font[a]) ∧ (∀ a, 80 ≤ a → a ≤ 4095 → t.mem.read a = 0) ∧
    (∀ k : RegIdx, t.V[k] = 0) ∧ t.I = 0 ∧ t.pc.toNat = 512 ∧ (∀ k : Fin 16, t.stack[k] = 0) ∧ t.sp.val = 0 ∧
    (∀ (r : Fin 32) (c : Fin 64), t.fb[r][c] = false) ∧ (∀ k : Fin 16, t.key[k] = false) ∧
    t.DT = 0 ∧ t.ST = 0 ∧ t.redraw = true ∧ t.sound = false ∧
    t.mem.font = s.mem.font ∧ t.rnd = s.rnd ∧ t.drawn = s.drawn) ∧
  resetMachine State.reset = State.reset

/-- With at most 3584 bytes Load answers Loaded and the reset state but for memory, which holds byte i at 512 + i and
reads as after reset elsewhere; with more it answers RomTooLarge and the reset state. Read failure is the host's own
(the spec's decision D27, log 21). [derived: 50_host_interface.md R176, 60_exceptions.md R196] -/
def Obligations.LoadPlacesTheProgramOrRejectsIt : Prop :=
  ∀ (s : State) (bytes : List Byte),
    (bytes.length ≤ 3584 → (load bytes s).2 = .loaded ∧
      (load bytes s).1 = { resetMachine s with mem := (load bytes s).1.mem } ∧
      (∀ i (h : i < bytes.length), (load bytes s).1.mem.read (512 + i) = bytes[i]) ∧
      ∀ a, a < 512 ∨ 512 + bytes.length ≤ a → (load bytes s).1.mem.read a = (resetMachine s).mem.read a) ∧
    (3584 < bytes.length → load bytes s = (resetMachine s, .romTooLarge))

/-- With memory canonical, after withFetchWord the next step is the end of the cycle of exec of the decoded word, or, if
it decodes to no instruction, UnknownInstruction of it; where pc allows a fetch, nothing but memory is changed. The
model's own choice (log 21). [derived: 20_memory.md R43, 40_cycle.md R81] -/
def Obligations.PlacedWordIsTheNextFetched : Prop :=
  ∀ (s : State) (w : Word), s.mem.wf = true →
    (s.withFetchWord 16 w.toNat).fetch = .ok w ∧
    (∀ i, decode w = .ok i → step (s.withFetchWord 16 w.toNat) = endCycle (exec i (s.withFetchWord 16 w.toNat))) ∧
    ((∀ i, decode w ≠ .ok i) → step (s.withFetchWord 16 w.toNat) = .fault (.unknownInstruction w)) ∧
    (s.pc.toNat + 1 ≤ 4095 → s.withFetchWord 16 w.toNat = { s with mem := (s.withFetchWord 16 w.toNat).mem })

/-- For a program that fits, a reset edge followed by one write edge per byte at 512 + i leaves the same machine state as
Load. The ports are the spec's own non-normative rendering D18 (log 23). [derived: 50_host_interface.md R180,
50_host_interface.md R176] -/
def Obligations.PortLoadIsLoad : Prop :=
  ∀ (s : PortState) (bytes : List Byte), programFits bytes = true →
    (portLoad bytes s).core = (load bytes s.core).1 ∧ (load bytes s.core).2 = .loaded

/-- SetKeys leaves every key as given, ClearRedraw leaves redraw 0, ClearSound leaves sound 0, and each keeps all other
state. On a port edge with neither rst nor tick, redraw and sound are 0 if their clear input is 1 and kept if it is 0,
memory is kept if ld_we is 0 and else is the old memory with ld_data written at ld_addr, and all other state is kept;
with memory canonical, after such a write ld_addr reads ld_data, every other address reads as before, and the memory
is canonical with the same FONT. The ports are the spec's own non-normative rendering D18 (log 23). [derived:
50_host_interface.md R173, 50_host_interface.md R174, 50_host_interface.md R180] -/
def Obligations.HostWritesChangeOnlyTheirElement : Prop :=
  (∀ (s : State) (k : Vector Bool 16), setKeys k s = { s with key := (setKeys k s).key } ∧
      ∀ j : Fin 16, (setKeys k s).key[j] = k[j]) ∧
  (∀ s : State, clearRedraw s = { s with redraw := false } ∧ clearSound s = { s with sound := false }) ∧
  ∀ (p : PortIn) (s : PortState), p.rst = false → p.tick = false →
    (edge p s).core = { s.core with mem := if p.ldWe then s.core.mem.write p.ldAddr.toNat p.ldData else s.core.mem
                                    redraw := if p.redrawClr then false else s.core.redraw
                                    sound := if p.soundClr then false else s.core.sound } ∧
    (p.ldWe = true → s.core.mem.wf = true → (edge p s).core.mem.read p.ldAddr.toNat = p.ldData ∧
      (∀ a, a ≠ p.ldAddr.toNat → (edge p s).core.mem.read a = s.core.mem.read a) ∧
      (edge p s).core.mem.wf = true ∧ (edge p s).core.mem.font = s.core.mem.font)

/-- With tick and neither rst nor ld_we, an edge runs the cycle with the sampled random byte and key k as bit k of the
input: after a fatal error err_valid is 1, err_code its number in R190 and err_info its information word; after Ok
err_valid is 0; the machine is what the cycle left. With tick and ld_we and no rst the machine is kept and err_valid
is 0. With rst the machine is Initialize's and err_valid is 0. With neither rst nor tick the three are kept (that
err_code and err_info are, while err_valid is 0, is the model's choice, log 23). The ports are the spec's own non-
normative rendering D18, the codes its decision D17 (log 23, log 22). [derived: 50_host_interface.md R180,
60_exceptions.md R190] -/
def Obligations.PortEdgesReportTheCyclesResult : Prop :=
  ∀ (p : PortIn) (s : PortState),
    (p.rst = false → p.tick = true → p.ldWe = false → ∀ k : Vector Bool 16, (∀ j : Fin 16, k[j] = p.key.getLsbD j.val) →
      (edge p s).core = (runCycle p.rnd (setKeys k s.core)).1 ∧
      ((runCycle p.rnd (setKeys k s.core)).2 = .ok → (edge p s).errValid = false) ∧
      ∀ f : Fault, (runCycle p.rnd (setKeys k s.core)).2 = .fatal f → (edge p s).errValid = true ∧
        ∀ w : Word, (f = .unknownInstruction w → (edge p s).errCode.toNat = 1 ∧ (edge p s).errInfo = w) ∧
          (f = .stackOverflow w → (edge p s).errCode.toNat = 2 ∧ (edge p s).errInfo = w) ∧
          (f = .stackUnderflow w → (edge p s).errCode.toNat = 3 ∧ (edge p s).errInfo = w) ∧
          (f = .memoryOutOfBounds w → (edge p s).errCode.toNat = 4 ∧ (edge p s).errInfo = w) ∧
          (f = .keyIndexOutOfRange w → (edge p s).errCode.toNat = 5 ∧ (edge p s).errInfo = w)) ∧
    (p.rst = false → p.tick = true → p.ldWe = true → (edge p s).core = s.core ∧ (edge p s).errValid = false) ∧
    (p.rst = true → (edge p s).core = resetMachine s.core ∧ (edge p s).errValid = false) ∧
    (p.rst = false → p.tick = false → (edge p s).errValid = s.errValid ∧ (edge p s).errCode = s.errCode ∧
      (edge p s).errInfo = s.errInfo)

/-- For every row r and column c, an edge that samples fb_addr = 64 * r + c leaves fb_data equal to the pixel at row r,
column c. That it is the pixel of the framebuffer the edge leaves, and not of the one it finds, is the model's choice
(log 23); the ports are the spec's own non-normative rendering D18. [derived: 50_host_interface.md R180, 10_state.md
R17] -/
def Obligations.PortReadShowsTheSampledPixel : Prop :=
  ∀ (p : PortIn) (s : PortState) (r : Fin 32) (c : Fin 64), p.fbAddr.toNat = 64 * r.val + c.val →
    (edge p s).fbData = (edge p s).core.fb[r][c]
end

