-- ==== Sys2Proof/Laws/Decode.lean ====
section
/-!
SUPPORT. The fields of a word built by a format, and a word rebuilt from its fields (30_encoding.md R61, R62).
-/
namespace Sys2Proof

/-- The operand of a register field is its number. -/
@[simp] theorem regBits_toNat (x : RegIdx) : (regBits x).toNat = x.val := by
  have := x.isLt
  simp only [regBits, BitVec.toNat_ofNat]
  omega

theorem formatA_toNat (h : Nibble) (nnn : Addr) : (formatA h nnn).toNat = h.toNat * 4096 + nnn.toNat := by
  simp only [formatA, BitVec.toNat_append]
  rw [← Nat.shiftLeft_add_eq_or_of_lt nnn.isLt, Nat.shiftLeft_eq]

theorem formatXI_toNat (h : Nibble) (x : RegIdx) (nn : Byte) :
    (formatXI h x nn).toNat = h.toNat * 4096 + x.val * 256 + nn.toNat := by
  simp only [formatXI, BitVec.toNat_append]
  rw [← Nat.shiftLeft_add_eq_or_of_lt nn.isLt, ← Nat.shiftLeft_add_eq_or_of_lt (BitVec.isLt _), regBits_toNat]
  simp only [Nat.shiftLeft_eq]
  omega

theorem formatXYN_toNat (h : Nibble) (x y : RegIdx) (n : Nibble) :
    (formatXYN h x y n).toNat = h.toNat * 4096 + x.val * 256 + y.val * 16 + n.toNat := by
  simp only [formatXYN, BitVec.toNat_append]
  rw [← Nat.shiftLeft_add_eq_or_of_lt n.isLt, ← Nat.shiftLeft_add_eq_or_of_lt (BitVec.isLt _),
    ← Nat.shiftLeft_add_eq_or_of_lt (BitVec.isLt _), regBits_toNat, regBits_toNat]
  simp only [Nat.shiftLeft_eq]
  omega

/-! ### The fields as numbers (R61) -/

theorem opField_toNat (w : Word) : (opField w).toNat = w.toNat / 4096 := by
  have := w.isLt
  simp only [opField, BitVec.extractLsb'_toNat, Nat.shiftRight_eq_div_pow]
  omega

theorem xField_val (w : Word) : (xField w).val = w.toNat / 256 % 16 := by
  simp [xField, Nat.shiftRight_eq_div_pow]

theorem yField_val (w : Word) : (yField w).val = w.toNat / 16 % 16 := by
  simp [yField, Nat.shiftRight_eq_div_pow]

theorem nField_toNat (w : Word) : (nField w).toNat = w.toNat % 16 := by
  simp [nField, BitVec.extractLsb'_toNat]

theorem nnField_toNat (w : Word) : (nnField w).toNat = w.toNat % 256 := by
  simp [nnField, BitVec.extractLsb'_toNat]

theorem nnnField_toNat (w : Word) : (nnnField w).toNat = w.toNat % 4096 := by
  simp [nnnField, BitVec.extractLsb'_toNat]

/-! ### The fields of a format (R62) -/

@[simp] theorem opField_formatA (h : Nibble) (nnn : Addr) : opField (formatA h nnn) = h := by
  apply BitVec.eq_of_toNat_eq
  rw [opField_toNat, formatA_toNat]
  have := nnn.isLt
  omega

@[simp] theorem nnnField_formatA (h : Nibble) (nnn : Addr) : nnnField (formatA h nnn) = nnn := by
  apply BitVec.eq_of_toNat_eq
  rw [nnnField_toNat, formatA_toNat]
  have := nnn.isLt
  omega

@[simp] theorem opField_formatXI (h : Nibble) (x : RegIdx) (nn : Byte) : opField (formatXI h x nn) = h := by
  apply BitVec.eq_of_toNat_eq
  rw [opField_toNat, formatXI_toNat]
  have := nn.isLt
  have := x.isLt
  omega

@[simp] theorem xField_formatXI (h : Nibble) (x : RegIdx) (nn : Byte) : xField (formatXI h x nn) = x := by
  apply Fin.ext
  rw [xField_val, formatXI_toNat]
  have := nn.isLt
  have := x.isLt
  omega

@[simp] theorem nnField_formatXI (h : Nibble) (x : RegIdx) (nn : Byte) : nnField (formatXI h x nn) = nn := by
  apply BitVec.eq_of_toNat_eq
  rw [nnField_toNat, formatXI_toNat]
  have := nn.isLt
  omega

@[simp] theorem opField_formatXYN (h : Nibble) (x y : RegIdx) (n : Nibble) : opField (formatXYN h x y n) = h := by
  apply BitVec.eq_of_toNat_eq
  rw [opField_toNat, formatXYN_toNat]
  have := n.isLt
  have := x.isLt
  have := y.isLt
  omega

@[simp] theorem xField_formatXYN (h : Nibble) (x y : RegIdx) (n : Nibble) : xField (formatXYN h x y n) = x := by
  apply Fin.ext
  rw [xField_val, formatXYN_toNat]
  have := n.isLt
  have := x.isLt
  have := y.isLt
  omega

@[simp] theorem yField_formatXYN (h : Nibble) (x y : RegIdx) (n : Nibble) : yField (formatXYN h x y n) = y := by
  apply Fin.ext
  rw [yField_val, formatXYN_toNat]
  have := n.isLt
  have := x.isLt
  have := y.isLt
  omega

@[simp] theorem nField_formatXYN (h : Nibble) (x y : RegIdx) (n : Nibble) : nField (formatXYN h x y n) = n := by
  apply BitVec.eq_of_toNat_eq
  rw [nField_toNat, formatXYN_toNat]
  have := n.isLt
  omega

/-! ### A word is rebuilt from its fields -/

theorem formatA_fields (w : Word) : formatA (opField w) (nnnField w) = w := by
  apply BitVec.eq_of_toNat_eq
  rw [formatA_toNat, opField_toNat, nnnField_toNat]
  omega

theorem formatXI_fields (w : Word) : formatXI (opField w) (xField w) (nnField w) = w := by
  apply BitVec.eq_of_toNat_eq
  rw [formatXI_toNat, opField_toNat, xField_val, nnField_toNat]
  omega

theorem formatXYN_fields (w : Word) : formatXYN (opField w) (xField w) (yField w) (nField w) = w := by
  apply BitVec.eq_of_toNat_eq
  rw [formatXYN_toNat, opField_toNat, xField_val, yField_val, nField_toNat]
  omega

/-- A word is its two bytes in memory, the first in the high half (R43). -/
theorem wordOfBytes_hi_lo (w : Word) : wordOfBytes (hiByte w) (loByte w) = w := by
  apply BitVec.eq_of_toNat_eq
  have := w.isLt
  simp only [wordOfBytes, hiByte, loByte, BitVec.toNat_append]
  rw [← Nat.shiftLeft_add_eq_or_of_lt (BitVec.isLt _)]
  simp only [BitVec.extractLsb'_toNat, Nat.shiftLeft_eq, Nat.shiftRight_eq_div_pow]
  omega

end Sys2Proof
end

