-- ==== Sys2Proof/Laws/Display.lean ====
section
/-!
SUPPORT. What the drawing does, pixel by pixel: which pixels a sprite toggles and when it hits (44_display.md R151, R153).
-/
namespace Sys2Proof.Machine

/-- A sprite byte drawn at column `x0` has a set bit at column `c` (R152). -/
def rowSets (b : Byte) (x0 c : Nat) : Bool := decide (x0 ≤ c ∧ c < x0 + 8) && b.getLsbD (7 - (c - x0))

/-- The sprite rows drawn at column `x0`, row `ry`, have a set bit at row `r`, column `c` (R153). -/
def rowsSet (bs : List Byte) (x0 ry r c : Nat) : Bool :=
  decide (ry ≤ r) && (bs[r - ry]?.elim false fun b => rowSets b x0 c)

/-- A plotted bit toggles its own pixel and no other; off the screen it toggles none (R151, R153). -/
theorem plot_pixel (cx ry : Nat) (d : Frame × Bool) (r : Fin 32) (c : Fin 64) :
    (plot cx ry d).1[r][c] = (d.1[r][c] ^^ decide (cx = c.val ∧ ry = r.val)) := by
  unfold plot
  split
  · rename_i h
    simp only [Fin.getElem_fin, Vector.getElem_set]
    by_cases hr : ry = r.val
    · subst hr
      by_cases hc : cx = c.val
      · subst hc; simp
      · simp [hc]
    · simp [hr]
  · rename_i h
    have : ¬ (cx = c.val ∧ ry = r.val) := by omega
    simp [this]

/-- A plotted bit is a hit if its pixel is on the screen and was on (R151). -/
theorem plot_hit (cx ry : Nat) (d : Frame × Bool) :
    (plot cx ry d).2 = true ↔
      d.2 = true ∨ ∃ (r : Fin 32) (c : Fin 64), cx = c.val ∧ ry = r.val ∧ d.1[r][c] = true := by
  unfold plot
  split
  · rename_i h
    simp only [Bool.or_eq_true]
    constructor
    · rintro (h1 | h1)
      · exact .inl h1
      · exact .inr ⟨⟨ry, by omega⟩, ⟨cx, by omega⟩, rfl, rfl, h1⟩
    · rintro (h1 | ⟨r, c, rfl, rfl, h1⟩)
      · exact .inl h1
      · exact .inr h1
  · rename_i h
    constructor
    · exact .inl
    · rintro (h1 | ⟨r, c, rfl, rfl, -⟩)
      · exact h1
      · omega

/-- The first `m` columns of a sprite row. -/
theorem drawByte_prefix (b : Byte) (x0 ry m : Nat) (d : Frame × Bool) :
    (∀ (r : Fin 32) (c : Fin 64),
      ((List.range m).foldl (fun d j => if b.getLsbD (7 - j) then plot (x0 + j) ry d else d) d).1[r][c] =
        (d.1[r][c] ^^ decide (ry = r.val ∧ x0 ≤ c.val ∧ c.val < x0 + m ∧ b.getLsbD (7 - (c.val - x0)) = true))) ∧
    (((List.range m).foldl (fun d j => if b.getLsbD (7 - j) then plot (x0 + j) ry d else d) d).2 = true ↔
      d.2 = true ∨ ∃ (r : Fin 32) (c : Fin 64), (ry = r.val ∧ x0 ≤ c.val ∧ c.val < x0 + m ∧
        b.getLsbD (7 - (c.val - x0)) = true) ∧ d.1[r][c] = true) := by
  induction m with
  | zero =>
    refine ⟨fun r c => ?_, ?_⟩
    · have : ¬ (ry = r.val ∧ x0 ≤ c.val ∧ c.val < x0 + 0 ∧ b.getLsbD (7 - (c.val - x0)) = true) := by omega
      rw [decide_eq_false this, Bool.xor_false]
      rfl
    · constructor
      · exact .inl
      · rintro (h | ⟨r, c, h, -⟩)
        · exact h
        · omega
  | succ m ih =>
    rw [List.range_succ, List.foldl_append, List.foldl_cons, List.foldl_nil]
    obtain ⟨ihp, ihh⟩ := ih
    generalize hD : (List.range m).foldl (fun d j => if b.getLsbD (7 - j) then plot (x0 + j) ry d else d) d = D
      at ihp ihh
    by_cases hb : b.getLsbD (7 - m) = true
    · rw [if_pos hb]
      refine ⟨fun r c => ?_, ?_⟩
      · rw [plot_pixel, ihp, Bool.xor_assoc]
        congr 1
        by_cases hc : x0 + m = c.val
        · have hm : c.val - x0 = m := by omega
          have h2 : c.val < x0 + (m + 1) := by omega
          have h3 : x0 ≤ c.val := by omega
          simp [hc, hm, hb, h2, h3]
        · have h1 : c.val < x0 + (m + 1) ↔ c.val < x0 + m := by omega
          simp [hc, h1]
      · rw [plot_hit, ihh]
        constructor
        · rintro ((h | ⟨r, c, h, hd⟩) | ⟨r, c, hc, hr, hd⟩)
          · exact .inl h
          · exact .inr ⟨r, c, ⟨h.1, h.2.1, by omega, h.2.2.2⟩, hd⟩
          · rw [ihp] at hd
            have h1 : ¬ (ry = r.val ∧ x0 ≤ c.val ∧ c.val < x0 + m ∧ b.getLsbD (7 - (c.val - x0)) = true) := by omega
            have hm : c.val - x0 = m := by omega
            simp only [h1, decide_false, Bool.xor_false] at hd
            exact .inr ⟨r, c, ⟨hr, by omega, by omega, by rw [hm]; exact hb⟩, hd⟩
        · rintro (h | ⟨r, c, ⟨hr, h1, h2, h3⟩, hd⟩)
          · exact .inl (.inl h)
          · by_cases hc : x0 + m = c.val
            · right
              have hn : ¬ (ry = r.val ∧ x0 ≤ c.val ∧ c.val < x0 + m ∧ b.getLsbD (7 - (c.val - x0)) = true) := by
                omega
              refine ⟨r, c, hc, hr, ?_⟩
              rw [ihp]
              simpa only [hn, decide_false, Bool.xor_false] using hd
            · exact .inl (.inr ⟨r, c, ⟨hr, h1, by omega, h3⟩, hd⟩)
    · rw [if_neg hb]
      have key : ∀ c : Nat, (x0 ≤ c ∧ c < x0 + (m + 1) ∧ b.getLsbD (7 - (c - x0)) = true) ↔
          (x0 ≤ c ∧ c < x0 + m ∧ b.getLsbD (7 - (c - x0)) = true) := by
        intro c
        constructor
        · rintro ⟨h1, h2, h3⟩
          refine ⟨h1, ?_, h3⟩
          by_contra hc
          have hm : c - x0 = m := by omega
          rw [hm] at h3
          exact hb h3
        · rintro ⟨h1, h2, h3⟩
          exact ⟨h1, by omega, h3⟩
      refine ⟨fun r c => ?_, ?_⟩
      · simp only [ihp, key]
      · simp only [ihh, key]

/-- A sprite row toggles the pixels of its set bits on the screen. -/
theorem drawByte_pixel (b : Byte) (x0 ry : Nat) (d : Frame × Bool) (r : Fin 32) (c : Fin 64) :
    (drawByte b x0 ry d).1[r][c] = (d.1[r][c] ^^ (decide (ry = r.val) && rowSets b x0 c)) := by
  rw [drawByte, (drawByte_prefix b x0 ry 8 d).1]
  congr 1
  simp [rowSets, Bool.decide_and, Bool.and_assoc]

/-- A sprite row hits if one of those pixels was on. -/
theorem drawByte_hit (b : Byte) (x0 ry : Nat) (d : Frame × Bool) :
    (drawByte b x0 ry d).2 = true ↔
      d.2 = true ∨ ∃ (r : Fin 32) (c : Fin 64), ry = r.val ∧ rowSets b x0 c = true ∧ d.1[r][c] = true := by
  rw [drawByte, (drawByte_prefix b x0 ry 8 d).2]
  simp [rowSets, and_assoc]

theorem rowsSet_cons (b : Byte) (rest : List Byte) (x0 ry r c : Nat) :
    rowsSet (b :: rest) x0 ry r c = ((decide (ry = r) && rowSets b x0 c) ^^ rowsSet rest x0 (ry + 1) r c) := by
  unfold rowsSet
  rcases Nat.lt_trichotomy ry r with h | h | h
  · have h1 : r - ry = (r - (ry + 1)) + 1 := by omega
    have h2 : ry ≤ r := by omega
    have h3 : ry + 1 ≤ r := by omega
    simp [h1, h2, h3, Nat.ne_of_lt h]
  · subst h
    have h3 : ¬ (ry + 1 ≤ ry) := by omega
    simp [h3]
  · have h2 : ¬ (ry ≤ r) := by omega
    have h3 : ¬ (ry + 1 ≤ r) := by omega
    simp [h2, h3, Nat.ne_of_gt h]

/-- A sprite toggles exactly the pixels of its set bits that are on the screen (R151, R153). -/
theorem drawRows_pixel (x0 : Nat) (bs : List Byte) (ry : Nat) (d : Frame × Bool) (r : Fin 32) (c : Fin 64) :
    (drawRows x0 bs ry d).1[r][c] = (d.1[r][c] ^^ rowsSet bs x0 ry r c) := by
  induction bs generalizing ry d with
  | nil => simp [drawRows, rowsSet]
  | cons b rest ih => rw [drawRows, ih, drawByte_pixel, rowsSet_cons, Bool.xor_assoc]

/-- A sprite hits exactly if one of the pixels it toggles was on (R151). -/
theorem drawRows_hit (x0 : Nat) (bs : List Byte) (ry : Nat) (d : Frame × Bool) :
    (drawRows x0 bs ry d).2 = true ↔
      d.2 = true ∨ ∃ (r : Fin 32) (c : Fin 64), rowsSet bs x0 ry r c = true ∧ d.1[r][c] = true := by
  induction bs generalizing ry d with
  | nil => simp [drawRows, rowsSet]
  | cons b rest ih =>
    rw [drawRows, ih, drawByte_hit]
    constructor
    · rintro ((h | ⟨r, c, hr, hs, hd⟩) | ⟨r, c, hs, hd⟩)
      · exact .inl h
      · refine .inr ⟨r, c, ?_, hd⟩
        simp [hr, hs, rowsSet]
      · rw [drawByte_pixel] at hd
        have hlt : ry + 1 ≤ r.val := by
          by_contra hn
          simp [rowsSet, hn] at hs
        have hne : ¬ ry = r.val := by omega
        simp only [hne, decide_false, Bool.false_and, Bool.xor_false] at hd
        exact .inr ⟨r, c, by simp [rowsSet_cons, hne, hs], hd⟩
    · rintro (h | ⟨r, c, hs, hd⟩)
      · exact .inl (.inl h)
      · rw [rowsSet_cons] at hs
        by_cases hr : ry = r.val
        · have hn : ¬ (ry + 1 ≤ r.val) := by omega
          have hf : rowsSet rest x0 (ry + 1) r.val c.val = false := by simp [rowsSet, hn]
          simp only [hr, decide_true, Bool.true_and] at hs hf
          rw [hf, Bool.xor_false] at hs
          exact .inl (.inr ⟨r, c, hr, hs, hd⟩)
        · simp only [hr, decide_false, Bool.false_and, Bool.false_xor] at hs
          refine .inr ⟨r, c, hs, ?_⟩
          rw [drawByte_pixel]
          simpa [hr] using hd

end Sys2Proof.Machine
end

