-- ==== Sys2Proof/Laws/Memory.lean ====
section
/-!
SUPPORT. What the memory operations do: a read after a write, and the canonical form kept (20_memory.md R46, R49; log 18).
-/
namespace Sys2Proof.Machine

theorem Memory.wfFrom_cons (m : Memory) (lo a : Nat) (v : Byte) (rest : List Host.Cell) :
    m.wfFrom lo ((a, v) :: rest) = true ↔
      lo ≤ a ∧ a < 4096 ∧ v ≠ m.unlisted a ∧ m.wfFrom (a + 1) rest = true := by
  simp [Memory.wfFrom, and_assoc]

/-- A canonical list from a higher bound is canonical from a lower one. -/
theorem Memory.wfFrom_mono (m : Memory) {lo lo' : Nat} (h : lo ≤ lo') (cells : List Host.Cell)
    (hw : m.wfFrom lo' cells = true) : m.wfFrom lo cells = true := by
  cases cells with
  | nil => rfl
  | cons c rest =>
    obtain ⟨a, v⟩ := c
    rw [Memory.wfFrom_cons] at hw ⊢
    exact ⟨le_trans h hw.1, hw.2⟩

/-- A canonical list from `lo` lists no address below `lo`. -/
theorem Memory.findCell_of_lt (m : Memory) {a lo : Nat} (h : a < lo) (cells : List Host.Cell)
    (hw : m.wfFrom lo cells = true) : Memory.findCell a cells = none := by
  cases cells with
  | nil => rfl
  | cons c rest =>
    obtain ⟨b, v⟩ := c
    rw [Memory.wfFrom_cons] at hw
    have hb : a < b := by omega
    simp [Memory.findCell, Nat.lt_asymm hb, Nat.ne_of_gt hb]

@[simp] theorem Memory.write_font (m : Memory) (a : Nat) (v : Byte) : (m.write a v).font = m.font := rfl

@[simp] theorem Memory.write_unlisted (m : Memory) (a : Nat) (v : Byte) (k : Nat) :
    (m.write a v).unlisted k = m.unlisted k := rfl

theorem Memory.wfFrom_congr {m m' : Memory} (h : m.font = m'.font) (lo : Nat) (cells : List Host.Cell) :
    m.wfFrom lo cells = m'.wfFrom lo cells := by
  induction cells generalizing lo with
  | nil => rfl
  | cons c rest ih => simp [Memory.wfFrom, Memory.unlisted, h, ih]

/-- What a list of cells gives after one of its addresses is written or removed. -/
theorem Memory.findCell_putCell (m : Memory) (a k : Nat) (v : Byte) (keep : Bool) (lo : Nat) (cells : List Host.Cell)
    (hw : m.wfFrom lo cells = true) :
    Memory.findCell k (Memory.putCell a v keep cells) =
      if k = a then (if keep then some v else none) else Memory.findCell k cells := by
  induction cells generalizing lo with
  | nil =>
    cases keep
    · simp [Memory.putCell, Memory.findCell]
    · rcases Nat.lt_trichotomy a k with h | h | h
      · simp [Memory.putCell, Memory.findCell, h, Nat.ne_of_gt h]
      · simp [Memory.putCell, Memory.findCell, h]
      · simp [Memory.putCell, Memory.findCell, Nat.lt_asymm h, Nat.ne_of_lt h, Nat.ne_of_gt h]
  | cons c rest ih =>
    obtain ⟨b, w⟩ := c
    rw [Memory.wfFrom_cons] at hw
    rcases Nat.lt_trichotomy b a with hba | hba | hba
    · rw [Memory.putCell, if_pos hba, Memory.findCell, Memory.findCell, ih (b + 1) hw.2.2.2]
      by_cases hk : k = a
      · subst hk; simp [hba]
      · simp [hk]
    · subst hba
      rw [Memory.putCell, if_neg (lt_irrefl b), if_pos rfl]
      cases keep <;> by_cases hk : k = b
      · subst hk
        simpa using Memory.findCell_of_lt m (Nat.lt_succ_self k) rest hw.2.2.2
      · simp only [hk, if_false, Memory.findCell, Ne.symm hk, Bool.false_eq_true]
        split
        · rfl
        · exact Memory.findCell_of_lt m (by omega) rest hw.2.2.2
      · subst hk; simp [Memory.findCell]
      · simp [Memory.findCell, hk, Ne.symm hk]
    · have hn : ¬ b < a := by omega
      have hne : ¬ b = a := by omega
      rw [Memory.putCell, if_neg hn, if_neg hne]
      cases keep <;> by_cases hk : k = a
      · subst hk; simp [Memory.findCell, hn, hne]
      · simp [hk]
      · subst hk; simp [Memory.findCell]
      · simp only [hk, if_false, if_true, Memory.findCell, Ne.symm hk]
        split
        · rfl
        · have : ¬ b < k := by omega
          have : ¬ b = k := by omega
          simp [*]

/-- Writing or removing an address keeps a list canonical. -/
theorem Memory.wfFrom_putCell (m : Memory) (a : Nat) (v : Byte) (ha : a < 4096) (lo : Nat) (hlo : lo ≤ a)
    (cells : List Host.Cell) (hw : m.wfFrom lo cells = true) :
    m.wfFrom lo (Memory.putCell a v (v != m.unlisted a) cells) = true := by
  induction cells generalizing lo with
  | nil =>
    rw [Memory.putCell]
    split
    · rename_i h; simpa [Memory.wfFrom, ha, hlo] using h
    · rfl
  | cons c rest ih =>
    obtain ⟨b, w⟩ := c
    have hw' := hw
    rw [Memory.wfFrom_cons] at hw'
    obtain ⟨h1, h2, h3, h4⟩ := hw'
    rw [Memory.putCell]
    split
    · rename_i hba
      rw [Memory.wfFrom_cons]
      exact ⟨h1, h2, h3, ih (b + 1) hba h4⟩
    · split
      · rename_i hba
        subst hba
        split
        · rename_i h
          rw [Memory.wfFrom_cons]
          exact ⟨h1, h2, by simpa using h, h4⟩
        · exact Memory.wfFrom_mono m (by omega) rest h4
      · rename_i hn hne
        split
        · rename_i h
          rw [Memory.wfFrom_cons, Memory.wfFrom_cons]
          exact ⟨hlo, ha, by simpa using h, by omega, h2, h3, h4⟩
        · exact hw

/-- A store keeps the canonical form. -/
theorem Memory.wf_write (m : Memory) (a : Nat) (v : Byte) (ha : a < 4096) (hw : m.wf = true) :
    (m.write a v).wf = true := by
  exact (Memory.wfFrom_congr (m := m.write a v) (m' := m) rfl 0 _).trans
    (Memory.wfFrom_putCell m a v ha 0 (Nat.zero_le a) m.cells hw)

/-- A read after a store: the byte stored at its address, every other byte as before (R46, R49). -/
theorem Memory.read_write (m : Memory) (a k : Nat) (v : Byte) (hw : m.wf = true) :
    (m.write a v).read k = if k = a then v else m.read k := by
  unfold Memory.read
  rw [Memory.write_unlisted]
  show (Memory.findCell k (Memory.putCell a v (v != m.unlisted a) m.cells)).getD _ = _
  rw [Memory.findCell_putCell m a k v _ 0 m.cells hw]
  by_cases hk : k = a
  · subst hk
    by_cases hv : v = m.unlisted k <;> simp [hv]
  · simp [hk]

@[simp] theorem Memory.writeBlock_font (m : Memory) (a : Nat) (bs : List Byte) :
    (m.writeBlock a bs).font = m.font := by
  induction bs generalizing m a with
  | nil => rfl
  | cons b rest ih => exact ih (m.write a b) (a + 1)

/-- Storing bytes keeps the canonical form. -/
theorem Memory.wf_writeBlock (m : Memory) (a : Nat) (bs : List Byte) (ha : a + bs.length ≤ 4096)
    (hw : m.wf = true) : (m.writeBlock a bs).wf = true := by
  induction bs generalizing m a with
  | nil => exact hw
  | cons b rest ih =>
    simp only [List.length_cons] at ha
    exact ih (m.write a b) (a + 1) (by omega) (Memory.wf_write m a b (by omega) hw)

/-- A read after storing bytes from `a` up: the stored byte inside the block, every other byte as before. -/
theorem Memory.read_writeBlock (m : Memory) (a k : Nat) (bs : List Byte) (ha : a + bs.length ≤ 4096)
    (hw : m.wf = true) :
    (m.writeBlock a bs).read k = if h : a ≤ k ∧ k < a + bs.length then bs[k - a]'(by omega) else m.read k := by
  induction bs generalizing m a with
  | nil =>
    have : ¬ (a ≤ k ∧ k < a + ([] : List Byte).length) := by simp
    rw [dif_neg this]; rfl
  | cons b rest ih =>
    simp only [List.length_cons] at ha
    rw [Memory.writeBlock, ih (m.write a b) (a + 1) (by omega) (Memory.wf_write m a b (by omega) hw),
      Memory.read_write m a k b hw]
    by_cases hk : k = a
    · subst hk
      simp
    · by_cases hin : a + 1 ≤ k ∧ k < a + 1 + rest.length
      · have hin' : a ≤ k ∧ k < a + (b :: rest).length := by simp only [List.length_cons]; omega
        rw [dif_pos hin, dif_pos hin']
        have : k - a = (k - (a + 1)) + 1 := by omega
        simp only [this, List.getElem_cons_succ]
      · have hin' : ¬ (a ≤ k ∧ k < a + (b :: rest).length) := by simp only [List.length_cons]; omega
        rw [dif_neg hin, dif_neg hin', if_neg hk]

@[simp] theorem Memory.readBlock_length (m : Memory) (a n : Nat) : (m.readBlock a n).length = n := by
  induction n generalizing a with
  | zero => rfl
  | succ n ih => simp [Memory.readBlock, ih]

/-- The bytes of a block are the bytes at its addresses (R44). -/
theorem Memory.readBlock_getElem (m : Memory) (a n k : Nat) (h : k < (m.readBlock a n).length) :
    (m.readBlock a n)[k] = m.read (a + k) := by
  induction n generalizing a k with
  | zero => simp [Memory.readBlock] at h
  | succ n ih =>
    cases k with
    | zero => rfl
    | succ k =>
      simp only [Memory.readBlock, List.getElem_cons_succ]
      rw [ih, Nat.add_right_comm, Nat.add_assoc]

/-- After reset nothing is listed, and that is canonical (R22). -/
theorem State.initial_mem_wf (font : Vector Byte 80) (r : Byte) (d : Nat) :
    (State.initial font r d).mem.wf = true := rfl

end Sys2Proof.Machine
end

