-- ==== Sys2Proof/Laws/State.lean ====
section
/-!
SUPPORT. One lemma per field per update of State, true by rfl, so that no later proof unfolds a record update.
-/
namespace Sys2Proof.Machine

variable (s : State)

/-! ### setV -/

@[simp] theorem State.setV_mem (x : RegIdx) (v : Byte) : (s.setV x v).mem = s.mem := rfl
@[simp] theorem State.setV_V (x : RegIdx) (v : Byte) : (s.setV x v).V = s.V.set x v := rfl
@[simp] theorem State.setV_I (x : RegIdx) (v : Byte) : (s.setV x v).I = s.I := rfl
@[simp] theorem State.setV_pc (x : RegIdx) (v : Byte) : (s.setV x v).pc = s.pc := rfl
@[simp] theorem State.setV_stack (x : RegIdx) (v : Byte) : (s.setV x v).stack = s.stack := rfl
@[simp] theorem State.setV_sp (x : RegIdx) (v : Byte) : (s.setV x v).sp = s.sp := rfl
@[simp] theorem State.setV_fb (x : RegIdx) (v : Byte) : (s.setV x v).fb = s.fb := rfl
@[simp] theorem State.setV_key (x : RegIdx) (v : Byte) : (s.setV x v).key = s.key := rfl
@[simp] theorem State.setV_DT (x : RegIdx) (v : Byte) : (s.setV x v).DT = s.DT := rfl
@[simp] theorem State.setV_ST (x : RegIdx) (v : Byte) : (s.setV x v).ST = s.ST := rfl
@[simp] theorem State.setV_redraw (x : RegIdx) (v : Byte) : (s.setV x v).redraw = s.redraw := rfl
@[simp] theorem State.setV_sound (x : RegIdx) (v : Byte) : (s.setV x v).sound = s.sound := rfl
@[simp] theorem State.setV_rnd (x : RegIdx) (v : Byte) : (s.setV x v).rnd = s.rnd := rfl
@[simp] theorem State.setV_drawn (x : RegIdx) (v : Byte) : (s.setV x v).drawn = s.drawn := rfl

/-! ### setFlag -/

@[simp] theorem State.setFlag_mem (c : Bool) : (s.setFlag c).mem = s.mem := rfl
@[simp] theorem State.setFlag_V (c : Bool) : (s.setFlag c).V = s.V.set regF (if c then 1 else 0) := rfl
@[simp] theorem State.setFlag_I (c : Bool) : (s.setFlag c).I = s.I := rfl
@[simp] theorem State.setFlag_pc (c : Bool) : (s.setFlag c).pc = s.pc := rfl
@[simp] theorem State.setFlag_stack (c : Bool) : (s.setFlag c).stack = s.stack := rfl
@[simp] theorem State.setFlag_sp (c : Bool) : (s.setFlag c).sp = s.sp := rfl
@[simp] theorem State.setFlag_fb (c : Bool) : (s.setFlag c).fb = s.fb := rfl
@[simp] theorem State.setFlag_key (c : Bool) : (s.setFlag c).key = s.key := rfl
@[simp] theorem State.setFlag_DT (c : Bool) : (s.setFlag c).DT = s.DT := rfl
@[simp] theorem State.setFlag_ST (c : Bool) : (s.setFlag c).ST = s.ST := rfl
@[simp] theorem State.setFlag_redraw (c : Bool) : (s.setFlag c).redraw = s.redraw := rfl
@[simp] theorem State.setFlag_sound (c : Bool) : (s.setFlag c).sound = s.sound := rfl
@[simp] theorem State.setFlag_rnd (c : Bool) : (s.setFlag c).rnd = s.rnd := rfl
@[simp] theorem State.setFlag_drawn (c : Bool) : (s.setFlag c).drawn = s.drawn := rfl

/-! ### setI -/

@[simp] theorem State.setI_mem (v : Word) : (s.setI v).mem = s.mem := rfl
@[simp] theorem State.setI_V (v : Word) : (s.setI v).V = s.V := rfl
@[simp] theorem State.setI_I (v : Word) : (s.setI v).I = v := rfl
@[simp] theorem State.setI_pc (v : Word) : (s.setI v).pc = s.pc := rfl
@[simp] theorem State.setI_stack (v : Word) : (s.setI v).stack = s.stack := rfl
@[simp] theorem State.setI_sp (v : Word) : (s.setI v).sp = s.sp := rfl
@[simp] theorem State.setI_fb (v : Word) : (s.setI v).fb = s.fb := rfl
@[simp] theorem State.setI_key (v : Word) : (s.setI v).key = s.key := rfl
@[simp] theorem State.setI_DT (v : Word) : (s.setI v).DT = s.DT := rfl
@[simp] theorem State.setI_ST (v : Word) : (s.setI v).ST = s.ST := rfl
@[simp] theorem State.setI_redraw (v : Word) : (s.setI v).redraw = s.redraw := rfl
@[simp] theorem State.setI_sound (v : Word) : (s.setI v).sound = s.sound := rfl
@[simp] theorem State.setI_rnd (v : Word) : (s.setI v).rnd = s.rnd := rfl
@[simp] theorem State.setI_drawn (v : Word) : (s.setI v).drawn = s.drawn := rfl

/-! ### setDT -/

@[simp] theorem State.setDT_mem (v : Byte) : (s.setDT v).mem = s.mem := rfl
@[simp] theorem State.setDT_V (v : Byte) : (s.setDT v).V = s.V := rfl
@[simp] theorem State.setDT_I (v : Byte) : (s.setDT v).I = s.I := rfl
@[simp] theorem State.setDT_pc (v : Byte) : (s.setDT v).pc = s.pc := rfl
@[simp] theorem State.setDT_stack (v : Byte) : (s.setDT v).stack = s.stack := rfl
@[simp] theorem State.setDT_sp (v : Byte) : (s.setDT v).sp = s.sp := rfl
@[simp] theorem State.setDT_fb (v : Byte) : (s.setDT v).fb = s.fb := rfl
@[simp] theorem State.setDT_key (v : Byte) : (s.setDT v).key = s.key := rfl
@[simp] theorem State.setDT_DT (v : Byte) : (s.setDT v).DT = v := rfl
@[simp] theorem State.setDT_ST (v : Byte) : (s.setDT v).ST = s.ST := rfl
@[simp] theorem State.setDT_redraw (v : Byte) : (s.setDT v).redraw = s.redraw := rfl
@[simp] theorem State.setDT_sound (v : Byte) : (s.setDT v).sound = s.sound := rfl
@[simp] theorem State.setDT_rnd (v : Byte) : (s.setDT v).rnd = s.rnd := rfl
@[simp] theorem State.setDT_drawn (v : Byte) : (s.setDT v).drawn = s.drawn := rfl

/-! ### setST -/

@[simp] theorem State.setST_mem (v : Byte) : (s.setST v).mem = s.mem := rfl
@[simp] theorem State.setST_V (v : Byte) : (s.setST v).V = s.V := rfl
@[simp] theorem State.setST_I (v : Byte) : (s.setST v).I = s.I := rfl
@[simp] theorem State.setST_pc (v : Byte) : (s.setST v).pc = s.pc := rfl
@[simp] theorem State.setST_stack (v : Byte) : (s.setST v).stack = s.stack := rfl
@[simp] theorem State.setST_sp (v : Byte) : (s.setST v).sp = s.sp := rfl
@[simp] theorem State.setST_fb (v : Byte) : (s.setST v).fb = s.fb := rfl
@[simp] theorem State.setST_key (v : Byte) : (s.setST v).key = s.key := rfl
@[simp] theorem State.setST_DT (v : Byte) : (s.setST v).DT = s.DT := rfl
@[simp] theorem State.setST_ST (v : Byte) : (s.setST v).ST = v := rfl
@[simp] theorem State.setST_redraw (v : Byte) : (s.setST v).redraw = s.redraw := rfl
@[simp] theorem State.setST_sound (v : Byte) : (s.setST v).sound = s.sound := rfl
@[simp] theorem State.setST_rnd (v : Byte) : (s.setST v).rnd = s.rnd := rfl
@[simp] theorem State.setST_drawn (v : Byte) : (s.setST v).drawn = s.drawn := rfl

/-! ### setMem -/

@[simp] theorem State.setMem_mem (m : Memory) : (s.setMem m).mem = m := rfl
@[simp] theorem State.setMem_V (m : Memory) : (s.setMem m).V = s.V := rfl
@[simp] theorem State.setMem_I (m : Memory) : (s.setMem m).I = s.I := rfl
@[simp] theorem State.setMem_pc (m : Memory) : (s.setMem m).pc = s.pc := rfl
@[simp] theorem State.setMem_stack (m : Memory) : (s.setMem m).stack = s.stack := rfl
@[simp] theorem State.setMem_sp (m : Memory) : (s.setMem m).sp = s.sp := rfl
@[simp] theorem State.setMem_fb (m : Memory) : (s.setMem m).fb = s.fb := rfl
@[simp] theorem State.setMem_key (m : Memory) : (s.setMem m).key = s.key := rfl
@[simp] theorem State.setMem_DT (m : Memory) : (s.setMem m).DT = s.DT := rfl
@[simp] theorem State.setMem_ST (m : Memory) : (s.setMem m).ST = s.ST := rfl
@[simp] theorem State.setMem_redraw (m : Memory) : (s.setMem m).redraw = s.redraw := rfl
@[simp] theorem State.setMem_sound (m : Memory) : (s.setMem m).sound = s.sound := rfl
@[simp] theorem State.setMem_rnd (m : Memory) : (s.setMem m).rnd = s.rnd := rfl
@[simp] theorem State.setMem_drawn (m : Memory) : (s.setMem m).drawn = s.drawn := rfl

/-! ### setFb -/

@[simp] theorem State.setFb_mem (f : Frame) : (s.setFb f).mem = s.mem := rfl
@[simp] theorem State.setFb_V (f : Frame) : (s.setFb f).V = s.V := rfl
@[simp] theorem State.setFb_I (f : Frame) : (s.setFb f).I = s.I := rfl
@[simp] theorem State.setFb_pc (f : Frame) : (s.setFb f).pc = s.pc := rfl
@[simp] theorem State.setFb_stack (f : Frame) : (s.setFb f).stack = s.stack := rfl
@[simp] theorem State.setFb_sp (f : Frame) : (s.setFb f).sp = s.sp := rfl
@[simp] theorem State.setFb_fb (f : Frame) : (s.setFb f).fb = f := rfl
@[simp] theorem State.setFb_key (f : Frame) : (s.setFb f).key = s.key := rfl
@[simp] theorem State.setFb_DT (f : Frame) : (s.setFb f).DT = s.DT := rfl
@[simp] theorem State.setFb_ST (f : Frame) : (s.setFb f).ST = s.ST := rfl
@[simp] theorem State.setFb_redraw (f : Frame) : (s.setFb f).redraw = true := rfl
@[simp] theorem State.setFb_sound (f : Frame) : (s.setFb f).sound = s.sound := rfl
@[simp] theorem State.setFb_rnd (f : Frame) : (s.setFb f).rnd = s.rnd := rfl
@[simp] theorem State.setFb_drawn (f : Frame) : (s.setFb f).drawn = s.drawn := rfl

/-! ### nextRnd -/

@[simp] theorem State.nextRnd_mem : (s.nextRnd).mem = s.mem := rfl
@[simp] theorem State.nextRnd_V : (s.nextRnd).V = s.V := rfl
@[simp] theorem State.nextRnd_I : (s.nextRnd).I = s.I := rfl
@[simp] theorem State.nextRnd_pc : (s.nextRnd).pc = s.pc := rfl
@[simp] theorem State.nextRnd_stack : (s.nextRnd).stack = s.stack := rfl
@[simp] theorem State.nextRnd_sp : (s.nextRnd).sp = s.sp := rfl
@[simp] theorem State.nextRnd_fb : (s.nextRnd).fb = s.fb := rfl
@[simp] theorem State.nextRnd_key : (s.nextRnd).key = s.key := rfl
@[simp] theorem State.nextRnd_DT : (s.nextRnd).DT = s.DT := rfl
@[simp] theorem State.nextRnd_ST : (s.nextRnd).ST = s.ST := rfl
@[simp] theorem State.nextRnd_redraw : (s.nextRnd).redraw = s.redraw := rfl
@[simp] theorem State.nextRnd_sound : (s.nextRnd).sound = s.sound := rfl
@[simp] theorem State.nextRnd_rnd : (s.nextRnd).rnd = Config.rnd s.drawn := rfl
@[simp] theorem State.nextRnd_drawn : (s.nextRnd).drawn = s.drawn + 1 := rfl

/-! ### setPc -/

@[simp] theorem State.setPc_mem (w : Word) : (s.setPc w).mem = s.mem := rfl
@[simp] theorem State.setPc_V (w : Word) : (s.setPc w).V = s.V := rfl
@[simp] theorem State.setPc_I (w : Word) : (s.setPc w).I = s.I := rfl
@[simp] theorem State.setPc_pc (w : Word) : (s.setPc w).pc = w := rfl
@[simp] theorem State.setPc_stack (w : Word) : (s.setPc w).stack = s.stack := rfl
@[simp] theorem State.setPc_sp (w : Word) : (s.setPc w).sp = s.sp := rfl
@[simp] theorem State.setPc_fb (w : Word) : (s.setPc w).fb = s.fb := rfl
@[simp] theorem State.setPc_key (w : Word) : (s.setPc w).key = s.key := rfl
@[simp] theorem State.setPc_DT (w : Word) : (s.setPc w).DT = s.DT := rfl
@[simp] theorem State.setPc_ST (w : Word) : (s.setPc w).ST = s.ST := rfl
@[simp] theorem State.setPc_redraw (w : Word) : (s.setPc w).redraw = s.redraw := rfl
@[simp] theorem State.setPc_sound (w : Word) : (s.setPc w).sound = s.sound := rfl
@[simp] theorem State.setPc_rnd (w : Word) : (s.setPc w).rnd = s.rnd := rfl
@[simp] theorem State.setPc_drawn (w : Word) : (s.setPc w).drawn = s.drawn := rfl

/-! ### advance -/

@[simp] theorem State.advance_mem : (s.advance).mem = s.mem := rfl
@[simp] theorem State.advance_V : (s.advance).V = s.V := rfl
@[simp] theorem State.advance_I : (s.advance).I = s.I := rfl
@[simp] theorem State.advance_pc : (s.advance).pc = s.pc + 2 := rfl
@[simp] theorem State.advance_stack : (s.advance).stack = s.stack := rfl
@[simp] theorem State.advance_sp : (s.advance).sp = s.sp := rfl
@[simp] theorem State.advance_fb : (s.advance).fb = s.fb := rfl
@[simp] theorem State.advance_key : (s.advance).key = s.key := rfl
@[simp] theorem State.advance_DT : (s.advance).DT = s.DT := rfl
@[simp] theorem State.advance_ST : (s.advance).ST = s.ST := rfl
@[simp] theorem State.advance_redraw : (s.advance).redraw = s.redraw := rfl
@[simp] theorem State.advance_sound : (s.advance).sound = s.sound := rfl
@[simp] theorem State.advance_rnd : (s.advance).rnd = s.rnd := rfl
@[simp] theorem State.advance_drawn : (s.advance).drawn = s.drawn := rfl

/-! ### skipIf -/

@[simp] theorem State.skipIf_mem (c : Bool) : (s.skipIf c).mem = s.mem := rfl
@[simp] theorem State.skipIf_V (c : Bool) : (s.skipIf c).V = s.V := rfl
@[simp] theorem State.skipIf_I (c : Bool) : (s.skipIf c).I = s.I := rfl
@[simp] theorem State.skipIf_pc (c : Bool) : (s.skipIf c).pc = s.pc + if c then 4 else 2 := rfl
@[simp] theorem State.skipIf_stack (c : Bool) : (s.skipIf c).stack = s.stack := rfl
@[simp] theorem State.skipIf_sp (c : Bool) : (s.skipIf c).sp = s.sp := rfl
@[simp] theorem State.skipIf_fb (c : Bool) : (s.skipIf c).fb = s.fb := rfl
@[simp] theorem State.skipIf_key (c : Bool) : (s.skipIf c).key = s.key := rfl
@[simp] theorem State.skipIf_DT (c : Bool) : (s.skipIf c).DT = s.DT := rfl
@[simp] theorem State.skipIf_ST (c : Bool) : (s.skipIf c).ST = s.ST := rfl
@[simp] theorem State.skipIf_redraw (c : Bool) : (s.skipIf c).redraw = s.redraw := rfl
@[simp] theorem State.skipIf_sound (c : Bool) : (s.skipIf c).sound = s.sound := rfl
@[simp] theorem State.skipIf_rnd (c : Bool) : (s.skipIf c).rnd = s.rnd := rfl
@[simp] theorem State.skipIf_drawn (c : Bool) : (s.skipIf c).drawn = s.drawn := rfl

/-! ### timerTick -/

@[simp] theorem State.timerTick_mem : (s.timerTick).mem = s.mem := rfl
@[simp] theorem State.timerTick_V : (s.timerTick).V = s.V := rfl
@[simp] theorem State.timerTick_I : (s.timerTick).I = s.I := rfl
@[simp] theorem State.timerTick_pc : (s.timerTick).pc = s.pc := rfl
@[simp] theorem State.timerTick_stack : (s.timerTick).stack = s.stack := rfl
@[simp] theorem State.timerTick_sp : (s.timerTick).sp = s.sp := rfl
@[simp] theorem State.timerTick_fb : (s.timerTick).fb = s.fb := rfl
@[simp] theorem State.timerTick_key : (s.timerTick).key = s.key := rfl
@[simp] theorem State.timerTick_DT : (s.timerTick).DT = if s.DT = 0 then 0 else s.DT - 1 := rfl
@[simp] theorem State.timerTick_ST : (s.timerTick).ST = if s.ST = 0 then 0 else s.ST - 1 := rfl
@[simp] theorem State.timerTick_redraw : (s.timerTick).redraw = s.redraw := rfl
@[simp] theorem State.timerTick_sound : (s.timerTick).sound = if s.ST = 1 then true else s.sound := rfl
@[simp] theorem State.timerTick_rnd : (s.timerTick).rnd = s.rnd := rfl
@[simp] theorem State.timerTick_drawn : (s.timerTick).drawn = s.drawn := rfl

/-! ### setKeys -/

@[simp] theorem setKeys_mem (k : Vector Bool 16) : (setKeys k s).mem = s.mem := rfl
@[simp] theorem setKeys_V (k : Vector Bool 16) : (setKeys k s).V = s.V := rfl
@[simp] theorem setKeys_I (k : Vector Bool 16) : (setKeys k s).I = s.I := rfl
@[simp] theorem setKeys_pc (k : Vector Bool 16) : (setKeys k s).pc = s.pc := rfl
@[simp] theorem setKeys_stack (k : Vector Bool 16) : (setKeys k s).stack = s.stack := rfl
@[simp] theorem setKeys_sp (k : Vector Bool 16) : (setKeys k s).sp = s.sp := rfl
@[simp] theorem setKeys_fb (k : Vector Bool 16) : (setKeys k s).fb = s.fb := rfl
@[simp] theorem setKeys_key (k : Vector Bool 16) : (setKeys k s).key = k := rfl
@[simp] theorem setKeys_DT (k : Vector Bool 16) : (setKeys k s).DT = s.DT := rfl
@[simp] theorem setKeys_ST (k : Vector Bool 16) : (setKeys k s).ST = s.ST := rfl
@[simp] theorem setKeys_redraw (k : Vector Bool 16) : (setKeys k s).redraw = s.redraw := rfl
@[simp] theorem setKeys_sound (k : Vector Bool 16) : (setKeys k s).sound = s.sound := rfl
@[simp] theorem setKeys_rnd (k : Vector Bool 16) : (setKeys k s).rnd = s.rnd := rfl
@[simp] theorem setKeys_drawn (k : Vector Bool 16) : (setKeys k s).drawn = s.drawn := rfl

/-! ### clearRedraw -/

@[simp] theorem clearRedraw_mem : (clearRedraw s).mem = s.mem := rfl
@[simp] theorem clearRedraw_V : (clearRedraw s).V = s.V := rfl
@[simp] theorem clearRedraw_I : (clearRedraw s).I = s.I := rfl
@[simp] theorem clearRedraw_pc : (clearRedraw s).pc = s.pc := rfl
@[simp] theorem clearRedraw_stack : (clearRedraw s).stack = s.stack := rfl
@[simp] theorem clearRedraw_sp : (clearRedraw s).sp = s.sp := rfl
@[simp] theorem clearRedraw_fb : (clearRedraw s).fb = s.fb := rfl
@[simp] theorem clearRedraw_key : (clearRedraw s).key = s.key := rfl
@[simp] theorem clearRedraw_DT : (clearRedraw s).DT = s.DT := rfl
@[simp] theorem clearRedraw_ST : (clearRedraw s).ST = s.ST := rfl
@[simp] theorem clearRedraw_redraw : (clearRedraw s).redraw = false := rfl
@[simp] theorem clearRedraw_sound : (clearRedraw s).sound = s.sound := rfl
@[simp] theorem clearRedraw_rnd : (clearRedraw s).rnd = s.rnd := rfl
@[simp] theorem clearRedraw_drawn : (clearRedraw s).drawn = s.drawn := rfl

/-! ### clearSound -/

@[simp] theorem clearSound_mem : (clearSound s).mem = s.mem := rfl
@[simp] theorem clearSound_V : (clearSound s).V = s.V := rfl
@[simp] theorem clearSound_I : (clearSound s).I = s.I := rfl
@[simp] theorem clearSound_pc : (clearSound s).pc = s.pc := rfl
@[simp] theorem clearSound_stack : (clearSound s).stack = s.stack := rfl
@[simp] theorem clearSound_sp : (clearSound s).sp = s.sp := rfl
@[simp] theorem clearSound_fb : (clearSound s).fb = s.fb := rfl
@[simp] theorem clearSound_key : (clearSound s).key = s.key := rfl
@[simp] theorem clearSound_DT : (clearSound s).DT = s.DT := rfl
@[simp] theorem clearSound_ST : (clearSound s).ST = s.ST := rfl
@[simp] theorem clearSound_redraw : (clearSound s).redraw = s.redraw := rfl
@[simp] theorem clearSound_sound : (clearSound s).sound = false := rfl
@[simp] theorem clearSound_rnd : (clearSound s).rnd = s.rnd := rfl
@[simp] theorem clearSound_drawn : (clearSound s).drawn = s.drawn := rfl

/-! ### the state after Initialize -/

@[simp] theorem State.initial_mem (font : Vector Byte 80) (r : Byte) (d : Nat) :
    (State.initial font r d).mem = { font := font, cells := [] } := rfl
@[simp] theorem State.initial_V (font : Vector Byte 80) (r : Byte) (d : Nat) :
    (State.initial font r d).V = Vector.replicate 16 0 := rfl
@[simp] theorem State.initial_I (font : Vector Byte 80) (r : Byte) (d : Nat) :
    (State.initial font r d).I = 0 := rfl
@[simp] theorem State.initial_pc (font : Vector Byte 80) (r : Byte) (d : Nat) :
    (State.initial font r d).pc = 0x200 := rfl
@[simp] theorem State.initial_stack (font : Vector Byte 80) (r : Byte) (d : Nat) :
    (State.initial font r d).stack = Vector.replicate 16 0 := rfl
@[simp] theorem State.initial_sp (font : Vector Byte 80) (r : Byte) (d : Nat) :
    (State.initial font r d).sp = 0 := rfl
@[simp] theorem State.initial_fb (font : Vector Byte 80) (r : Byte) (d : Nat) :
    (State.initial font r d).fb = Vector.replicate 32 (Vector.replicate 64 false) := rfl
@[simp] theorem State.initial_key (font : Vector Byte 80) (r : Byte) (d : Nat) :
    (State.initial font r d).key = Vector.replicate 16 false := rfl
@[simp] theorem State.initial_DT (font : Vector Byte 80) (r : Byte) (d : Nat) :
    (State.initial font r d).DT = 0 := rfl
@[simp] theorem State.initial_ST (font : Vector Byte 80) (r : Byte) (d : Nat) :
    (State.initial font r d).ST = 0 := rfl
@[simp] theorem State.initial_redraw (font : Vector Byte 80) (r : Byte) (d : Nat) :
    (State.initial font r d).redraw = true := rfl
@[simp] theorem State.initial_sound (font : Vector Byte 80) (r : Byte) (d : Nat) :
    (State.initial font r d).sound = false := rfl
@[simp] theorem State.initial_rnd (font : Vector Byte 80) (r : Byte) (d : Nat) :
    (State.initial font r d).rnd = r := rfl
@[simp] theorem State.initial_drawn (font : Vector Byte 80) (r : Byte) (d : Nat) :
    (State.initial font r d).drawn = d := rfl

/-! ### reading a register -/

theorem State.getV_setV (x k : RegIdx) (v : Byte) : (s.setV x v).getV k = if k = x then v else s.getV k := by
  simp only [State.getV, State.setV, Fin.getElem_fin, Vector.getElem_set, Fin.ext_iff, eq_comm]

@[simp] theorem State.getV_setV_self (x : RegIdx) (v : Byte) : (s.setV x v).getV x = v := by
  simp [State.getV_setV]

theorem State.getV_setV_of_ne {x k : RegIdx} (h : k ≠ x) (v : Byte) : (s.setV x v).getV k = s.getV k := by
  simp [State.getV_setV, h]

theorem State.getV_setFlag (k : RegIdx) (c : Bool) :
    (s.setFlag c).getV k = if k = regF then (if c then 1 else 0) else s.getV k :=
  s.getV_setV regF k _

@[simp] theorem State.getV_setPc (k : RegIdx) (w : Word) : (s.setPc w).getV k = s.getV k := rfl
@[simp] theorem State.getV_advance (k : RegIdx) : s.advance.getV k = s.getV k := rfl
@[simp] theorem State.getV_nextRnd (k : RegIdx) : s.nextRnd.getV k = s.getV k := rfl
@[simp] theorem State.getV_setFb (k : RegIdx) (f : Frame) : (s.setFb f).getV k = s.getV k := rfl
@[simp] theorem State.getV_setI (k : RegIdx) (w : Word) : (s.setI w).getV k = s.getV k := rfl

end Sys2Proof.Machine
end

