-- ==== Sys2Proof/Laws/Ops.lean ====
section
/-!
SUPPORT. One lemma per shared operation that says everything it can do, to be cited instead of unfolding it.
-/
namespace Sys2Proof.Machine

/-! ### Bounds and keys -/

/-- An access inside the 4096 bytes, or to no byte, goes on (R42). -/
theorem guardBlock_of_le {base n : Nat} (h : n = 0 ∨ base + n ≤ 4096)
    (go : Host.Outcome State Fault Refusal) : guardBlock base n go = go := if_pos h

/-- An access with an address above 4095 is fatal, with the lowest such address (R42, R194). -/
theorem guardBlock_of_gt {base n : Nat} (h0 : n ≠ 0) (h : 4096 < base + n)
    (go : Host.Outcome State Fault Refusal) :
    guardBlock base n go = .fault (.memoryOutOfBounds (BitVec.ofNat 16 (max base 4096))) :=
  if_neg (by simp only [Config.memSize]; omega)

/-- If a guarded access answers a next state, it was in bounds and its continuation answered that state. -/
theorem guardBlock_next {base n : Nat} {go : Host.Outcome State Fault Refusal} {t : State}
    (h : guardBlock base n go = .next t) : (n = 0 ∨ base + n ≤ 4096) ∧ go = .next t := by
  by_cases hb : n = 0 ∨ base + n ≤ 4096
  · exact ⟨hb, (guardBlock_of_le hb go).symm.trans h⟩
  · rw [guardBlock_of_gt (by omega) (by omega)] at h
    cases h

/-- A register below 16 names the key of that number (R160). -/
theorem guardKey_of_lt (s : State) {v : Byte} (h : v.toNat < 16)
    (go : Bool → Host.Outcome State Fault Refusal) : guardKey s v go = go s.key[v.toNat] := dif_pos h

/-- A register above 15 names no key, which is fatal (R160, R195). -/
theorem guardKey_of_ge (s : State) {v : Byte} (h : 16 ≤ v.toNat)
    (go : Bool → Host.Outcome State Fault Refusal) :
    guardKey s v go = .fault (.keyIndexOutOfRange (v.setWidth 16)) := dif_neg (by omega)

/-- If a guarded key access answers a next state, the number was a key's and the continuation answered that state. -/
theorem guardKey_next {s : State} {v : Byte} {go : Bool → Host.Outcome State Fault Refusal} {t : State}
    (h : guardKey s v go = .next t) : ∃ hv : v.toNat < 16, go s.key[v.toNat] = .next t := by
  by_cases hv : v.toNat < 16
  · exact ⟨hv, (guardKey_of_lt s hv go).symm.trans h⟩
  · rw [guardKey_of_ge s (by omega)] at h
    cases h

/-! ### The call stack -/

/-- A push that succeeds found room, wrote the slot `sp` and counted it; nothing else changed (R15, R102). -/
theorem State.push_eq_some {s t : State} {w : Word} (h : s.push w = some t) :
    ∃ hs : s.sp.val < 16,
      t = { s with stack := s.stack.set s.sp.val w, sp := ⟨s.sp.val + 1, by omega⟩ } := by
  unfold State.push at h
  split at h
  · rename_i hs
    exact ⟨hs, (Option.some.inj h).symm⟩
  · cases h

/-- A push fails exactly on a full stack (R192). -/
theorem State.push_eq_none (s : State) (w : Word) : s.push w = none ↔ s.sp.val = 16 := by
  unfold State.push
  split
  · simp; omega
  · simp; omega

/-- A pop that succeeds found an entry, read the slot below `sp` and kept it; only `sp` changed (R15, R100). -/
theorem State.pop_eq_some {s t : State} {w : Word} (h : s.pop = some (w, t)) :
    ∃ hs : 0 < s.sp.val, w = s.stack[s.sp.val - 1] ∧ t = { s with sp := ⟨s.sp.val - 1, by omega⟩ } := by
  unfold State.pop at h
  split at h
  · rename_i hs
    cases h
    exact ⟨hs, rfl, rfl⟩
  · cases h

/-- A pop fails exactly on an empty stack (R193). -/
theorem State.pop_eq_none (s : State) : s.pop = none ↔ s.sp.val = 0 := by
  unfold State.pop
  split
  · simp; omega
  · simp; omega

/-! ### Operands -/

/-- The register block has `x + 1` bytes (R144). -/
@[simp] theorem State.regBlock_length (s : State) (x : RegIdx) : (s.regBlock x).length = x.val + 1 := by
  simp [State.regBlock, blockLen]

/-- Byte `k` of the register block is `V[k]` (R144). -/
theorem State.regBlock_getElem (s : State) (x : RegIdx) (k : Nat) (h : k < (s.regBlock x).length) :
    (s.regBlock x)[k] = s.V[k]'(by simp at h; omega) := by
  simp [State.regBlock]

/-- A loaded block: memory's byte up to `Vx`, the old register above (R145). -/
theorem State.loadBlock_getElem (s : State) (x : RegIdx) (a : Nat) (k : RegIdx) :
    (s.loadBlock x a)[k] = if k ≤ x then s.mem.read (a + k.val) else s.V[k] := by
  simp [State.loadBlock]

/-- The scan over keys answers the last key of the list that is down (R163). -/
theorem foldl_lastDown (key : Vector Bool 16) (l : List RegIdx) (start : Option RegIdx) :
    l.foldl (fun found k => if key[k] then some k else found) start =
      ((l.filter fun k => key[k]).getLast?).or start := by
  induction l generalizing start with
  | nil => simp
  | cons a rest ih =>
    rw [List.foldl_cons, ih]
    by_cases ha : key[a] = true
    · simp only [ha, if_true, List.filter_cons_of_pos, List.getLast?_cons]
      cases (rest.filter fun k => key[k]).getLast? <;> rfl
    · rw [if_neg ha, List.filter_cons_of_neg (by simpa using ha)]

/-! ### Fetch and the cycle -/

/-- Inside the memory a fetch reads the two bytes at `pc`, the first in the high half (R43, R81). -/
theorem State.fetch_of_le (s : State) (h : s.pc.toNat + 2 ≤ 4096) :
    s.fetch = .ok (s.mem.read s.pc.toNat ++ s.mem.read (s.pc.toNat + 1)) := if_pos h

/-- At `0xFFF` and above a fetch is fatal (R81). -/
theorem State.fetch_of_gt (s : State) (h : 4096 < s.pc.toNat + 2) :
    s.fetch = .error (.memoryOutOfBounds (BitVec.ofNat 16 (max s.pc.toNat 4096))) :=
  if_neg (by simp only [Config.memSize]; omega)

/-- An instruction was fetched only from two bytes inside the memory that decode to it (R80). -/
theorem State.fetchInstr_ok {s : State} {i : Instr} (h : s.fetchInstr = .ok i) :
    s.pc.toNat + 2 ≤ 4096 ∧ decode (s.mem.read s.pc.toNat ++ s.mem.read (s.pc.toNat + 1)) = .ok i := by
  by_cases hp : s.pc.toNat + 2 ≤ 4096
  · refine ⟨hp, ?_⟩
    simp only [State.fetchInstr, State.fetch_of_le s hp] at h
    split at h
    · rename_i j hj
      cases h
      exact hj
    · cases h
  · simp [State.fetchInstr, State.fetch_of_gt s (by omega)] at h

/-- All that a cycle can do (R80): a fetch or decode that raises, or an instruction executed and then the end of the
cycle. -/
theorem step_cases (s : State) :
    (∃ f, s.fetchInstr = .error f ∧ step s = .fault f) ∨
    (∃ i, s.fetchInstr = .ok i ∧ step s = endCycle (exec i s)) := by
  unfold step fatal
  cases h : s.fetchInstr with
  | error f => exact .inl ⟨f, rfl, rfl⟩
  | ok i => exact .inr ⟨i, rfl, rfl⟩

/-- A cycle that goes on executed a fetched instruction that went on, and then ticked (R80, R86). -/
theorem step_next {s t : State} (h : step s = .next t) :
    ∃ i u, s.fetchInstr = .ok i ∧ exec i s = .next u ∧ t = u.timerTick := by
  obtain ⟨f, -, hs⟩ | ⟨i, hi, hs⟩ := step_cases s
  · rw [hs] at h; cases h
  · rw [hs] at h
    cases hu : exec i s with
    | next u => rw [hu] at h; cases h; exact ⟨i, u, hi, hu, rfl⟩
    | fault f => rw [hu] at h; cases h
    | refused r => rw [hu] at h; cases h

end Sys2Proof.Machine
end

