-- ==== Sys2Proof/Laws/Exec.lean ====
section
/-!
SUPPORT. What a next state of the instructions with a condition looks like, one lemma each, so that no proof splits their
meanings again. The other instructions answer `.next` of a fixed term, by `rfl`.
-/
namespace Sys2Proof.Machine

/-- `00EE` in a state with an entry (R100). -/
theorem execRet_of_pos (s : State) (h : 0 < s.sp.val) :
    exec .ret s = .next { s with sp := ⟨s.sp.val - 1, by omega⟩, pc := s.stack[s.sp.val - 1] + 2 } := by
  simp only [exec, execRet, State.pop, dif_pos h, State.setPc]

/-- `00EE` with an empty stack (R193). -/
theorem execRet_of_zero (s : State) (h : s.sp.val = 0) : exec .ret s = .fault (.stackUnderflow 0x00EE) := by
  simp only [exec, execRet, (State.pop_eq_none s).mpr h, fatal, encode]

/-- `2nnn` in a state with room (R102). -/
theorem execCall_of_lt (s : State) (nnn : Addr) (h : s.sp.val < 16) :
    exec (.call nnn) s = .next { s with
      stack := s.stack.set s.sp.val s.pc, sp := ⟨s.sp.val + 1, by omega⟩, pc := addrOperand nnn } := by
  simp only [exec, execCall, State.push, dif_pos h, State.setPc]

/-- `2nnn` with a full stack (R192). -/
theorem execCall_of_full (s : State) (nnn : Addr) (h : s.sp.val = 16) :
    exec (.call nnn) s = .fault (.stackOverflow (encode (.call nnn))) := by
  simp only [exec, execCall, (State.push_eq_none s s.pc).mpr h, fatal]

/-- If `00EE` answers a next state, there was an entry, and the state is the one of R100. -/
theorem execRet_next {s t : State} (h : exec .ret s = .next t) :
    ∃ hs : 0 < s.sp.val, t = { s with sp := ⟨s.sp.val - 1, by omega⟩, pc := s.stack[s.sp.val - 1] + 2 } := by
  by_cases hs : 0 < s.sp.val
  · rw [execRet_of_pos s hs] at h; cases h; exact ⟨hs, rfl⟩
  · rw [execRet_of_zero s (by omega)] at h; cases h

/-- If `2nnn` answers a next state, there was room, and the state is the one of R102. -/
theorem execCall_next {s t : State} {nnn : Addr} (h : exec (.call nnn) s = .next t) :
    ∃ hs : s.sp.val < 16, t = { s with
      stack := s.stack.set s.sp.val s.pc, sp := ⟨s.sp.val + 1, by omega⟩, pc := addrOperand nnn } := by
  by_cases hs : s.sp.val < 16
  · rw [execCall_of_lt s nnn hs] at h; cases h; exact ⟨hs, rfl⟩
  · rw [execCall_of_full s nnn (by omega)] at h; cases h

/-- `Ex9E` with a key number in `Vx` skips if that key is down (R160). -/
theorem execSkp_of_lt (s : State) (x : RegIdx) (h : (s.getV x).toNat < 16) :
    exec (.skp x) s = .next (s.skipIf s.key[(s.getV x).toNat]) :=
  guardKey_of_lt s h fun down => .next (s.skipIf down)

/-- `ExA1` with a key number in `Vx` skips if that key is up (R161). -/
theorem execSknp_of_lt (s : State) (x : RegIdx) (h : (s.getV x).toNat < 16) :
    exec (.sknp x) s = .next (s.skipIf (!s.key[(s.getV x).toNat])) :=
  guardKey_of_lt s h fun down => .next (s.skipIf (!down))

/-- `Ex9E` with any other `Vx` is fatal (R195). -/
theorem execSkp_of_ge (s : State) (x : RegIdx) (h : 16 ≤ (s.getV x).toNat) :
    exec (.skp x) s = .fault (.keyIndexOutOfRange ((s.getV x).setWidth 16)) :=
  guardKey_of_ge s h fun down => .next (s.skipIf down)

/-- `ExA1` with any other `Vx` is fatal (R195). -/
theorem execSknp_of_ge (s : State) (x : RegIdx) (h : 16 ≤ (s.getV x).toNat) :
    exec (.sknp x) s = .fault (.keyIndexOutOfRange ((s.getV x).setWidth 16)) :=
  guardKey_of_ge s h fun down => .next (s.skipIf (!down))

/-- If `Ex9E` answers a next state, `Vx` names a key and the state is the skip on that key (R160). -/
theorem execSkp_next {s t : State} {x : RegIdx} (h : exec (.skp x) s = .next t) :
    ∃ hv : (s.getV x).toNat < 16, t = s.skipIf s.key[(s.getV x).toNat] := by
  obtain ⟨hv, h⟩ := guardKey_next
    (show guardKey s (s.getV x) (fun down => .next (s.skipIf down)) = .next t from h)
  cases h; exact ⟨hv, rfl⟩

/-- If `ExA1` answers a next state, `Vx` names a key and the state is the skip on its opposite (R161). -/
theorem execSknp_next {s t : State} {x : RegIdx} (h : exec (.sknp x) s = .next t) :
    ∃ hv : (s.getV x).toNat < 16, t = s.skipIf (!s.key[(s.getV x).toNat]) := by
  obtain ⟨hv, h⟩ := guardKey_next
    (show guardKey s (s.getV x) (fun down => .next (s.skipIf (!down))) = .next t from h)
  cases h; exact ⟨hv, rfl⟩

/-- What `Fx0A` can answer: the same state, or a key in `Vx` (R163). -/
theorem execLdVxK_next {s t : State} {x : RegIdx} (h : exec (.ldVxK x) s = .next t) :
    t = s ∨ ∃ k : RegIdx, t = (s.setV x (BitVec.ofNat 8 k.val)).advance := by
  simp only [exec, execLdVxK] at h
  split at h <;> cases h
  · exact .inr ⟨_, rfl⟩
  · exact .inl rfl

/-- A fetched instruction that goes on ends its cycle with the tick (R80, R86). -/
theorem step_of_exec {s t : State} {i : Instr} (hi : s.fetchInstr = .ok i) (h : exec i s = .next t) :
    step s = .next t.timerTick := by
  simp only [step, hi, h, endCycle]

/-- The tick takes one from a timer and stops at zero (R86). -/
theorem tick_toNat (b : Byte) : (if b = 0 then 0 else b - 1 : Byte).toNat = b.toNat - 1 := by
  split
  · rename_i h; simp [h]
  · bv_omega

end Sys2Proof.Machine
end

