-- ==== Sys2Proof/Laws/PerInstr.lean ====
section
/-!
SUPPORT. Statements made per instruction: the word of an instruction is selected by its own row of the opcode table (R63).
-/
namespace Sys2Proof.Laws.EncodesRow

open Sys2Proof

/-- The encoding of `i`, masked, is the match of the row of `i` in the opcode table (R63). -/
def Statement (i : Instr) : Prop := ∃ r ∈ opcodeTable, r.num = i.rowNum ∧ encode i &&& r.mask = r.bits

/-! ### The masks on the formats -/

theorem formatA_mask (h : Nibble) (nnn : Addr) : formatA h nnn &&& 0xF000 = formatA h 0 := by
  have e : (0xF000 : Word) = BitVec.allOnes 4 ++ (0#12 : Addr) := rfl
  simp only [formatA, e]
  rw [BitVec.and_append, BitVec.and_allOnes, BitVec.and_zero]
  rfl

theorem formatXI_mask (h : Nibble) (x : RegIdx) (nn : Byte) : formatXI h x nn &&& 0xF000 = formatXI h 0 0 := by
  have e : (0xF000 : Word) = BitVec.allOnes 4 ++ (0#4 : Nibble) ++ (0#8 : Byte) := rfl
  simp only [formatXI, e]
  rw [BitVec.and_append, BitVec.and_append, BitVec.and_allOnes, BitVec.and_zero, BitVec.and_zero]
  rfl

theorem formatX_mask (h : Nibble) (x : RegIdx) (nn : Byte) : formatXI h x nn &&& 0xF0FF = formatXI h 0 nn := by
  have e : (0xF0FF : Word) = BitVec.allOnes 4 ++ (0#4 : Nibble) ++ BitVec.allOnes 8 := rfl
  simp only [formatXI, e]
  rw [BitVec.and_append, BitVec.and_append, BitVec.and_allOnes, BitVec.and_zero, BitVec.and_allOnes]
  rfl

theorem formatXYN_mask (h : Nibble) (x y : RegIdx) (n : Nibble) :
    formatXYN h x y n &&& 0xF000 = formatXYN h 0 0 0 := by
  have e : (0xF000 : Word) = BitVec.allOnes 4 ++ (0#4 : Nibble) ++ (0#4 : Nibble) ++ (0#4 : Nibble) := rfl
  simp only [formatXYN, e]
  rw [BitVec.and_append, BitVec.and_append, BitVec.and_append, BitVec.and_allOnes, BitVec.and_zero, BitVec.and_zero,
    BitVec.and_zero]
  rfl

theorem formatXY_mask (h : Nibble) (x y : RegIdx) (n : Nibble) :
    formatXYN h x y n &&& 0xF00F = formatXYN h 0 0 n := by
  have e : (0xF00F : Word) = BitVec.allOnes 4 ++ (0#4 : Nibble) ++ (0#4 : Nibble) ++ BitVec.allOnes 4 := rfl
  simp only [formatXYN, e]
  rw [BitVec.and_append, BitVec.and_append, BitVec.and_append, BitVec.and_allOnes, BitVec.and_zero, BitVec.and_zero,
    BitVec.and_allOnes]
  rfl

/-! ### One lemma per constructor -/

theorem cls : Statement .cls :=
  ⟨⟨1, 0x00E0, 0xFFFF⟩, by decide, rfl, rfl⟩

theorem ret : Statement .ret :=
  ⟨⟨2, 0x00EE, 0xFFFF⟩, by decide, rfl, rfl⟩

theorem jp (nnn : Addr) : Statement (.jp nnn) :=
  ⟨⟨3, 0x1000, 0xF000⟩, by decide, rfl, formatA_mask 0x1 nnn⟩

theorem call (nnn : Addr) : Statement (.call nnn) :=
  ⟨⟨4, 0x2000, 0xF000⟩, by decide, rfl, formatA_mask 0x2 nnn⟩

theorem seImm (x : RegIdx) (nn : Byte) : Statement (.seImm x nn) :=
  ⟨⟨5, 0x3000, 0xF000⟩, by decide, rfl, formatXI_mask 0x3 x nn⟩

theorem sneImm (x : RegIdx) (nn : Byte) : Statement (.sneImm x nn) :=
  ⟨⟨6, 0x4000, 0xF000⟩, by decide, rfl, formatXI_mask 0x4 x nn⟩

theorem seReg (x : RegIdx) (y : RegIdx) : Statement (.seReg x y) :=
  ⟨⟨7, 0x5000, 0xF00F⟩, by decide, rfl, formatXY_mask 0x5 x y 0x0⟩

theorem ldImm (x : RegIdx) (nn : Byte) : Statement (.ldImm x nn) :=
  ⟨⟨8, 0x6000, 0xF000⟩, by decide, rfl, formatXI_mask 0x6 x nn⟩

theorem addImm (x : RegIdx) (nn : Byte) : Statement (.addImm x nn) :=
  ⟨⟨9, 0x7000, 0xF000⟩, by decide, rfl, formatXI_mask 0x7 x nn⟩

theorem ldReg (x : RegIdx) (y : RegIdx) : Statement (.ldReg x y) :=
  ⟨⟨10, 0x8000, 0xF00F⟩, by decide, rfl, formatXY_mask 0x8 x y 0x0⟩

theorem orReg (x : RegIdx) (y : RegIdx) : Statement (.orReg x y) :=
  ⟨⟨11, 0x8001, 0xF00F⟩, by decide, rfl, formatXY_mask 0x8 x y 0x1⟩

theorem andReg (x : RegIdx) (y : RegIdx) : Statement (.andReg x y) :=
  ⟨⟨12, 0x8002, 0xF00F⟩, by decide, rfl, formatXY_mask 0x8 x y 0x2⟩

theorem xorReg (x : RegIdx) (y : RegIdx) : Statement (.xorReg x y) :=
  ⟨⟨13, 0x8003, 0xF00F⟩, by decide, rfl, formatXY_mask 0x8 x y 0x3⟩

theorem addReg (x : RegIdx) (y : RegIdx) : Statement (.addReg x y) :=
  ⟨⟨14, 0x8004, 0xF00F⟩, by decide, rfl, formatXY_mask 0x8 x y 0x4⟩

theorem subReg (x : RegIdx) (y : RegIdx) : Statement (.subReg x y) :=
  ⟨⟨15, 0x8005, 0xF00F⟩, by decide, rfl, formatXY_mask 0x8 x y 0x5⟩

theorem shr (x : RegIdx) (y : RegIdx) : Statement (.shr x y) :=
  ⟨⟨16, 0x8006, 0xF00F⟩, by decide, rfl, formatXY_mask 0x8 x y 0x6⟩

theorem subnReg (x : RegIdx) (y : RegIdx) : Statement (.subnReg x y) :=
  ⟨⟨17, 0x8007, 0xF00F⟩, by decide, rfl, formatXY_mask 0x8 x y 0x7⟩

theorem shl (x : RegIdx) (y : RegIdx) : Statement (.shl x y) :=
  ⟨⟨18, 0x800E, 0xF00F⟩, by decide, rfl, formatXY_mask 0x8 x y 0xE⟩

theorem sneReg (x : RegIdx) (y : RegIdx) : Statement (.sneReg x y) :=
  ⟨⟨19, 0x9000, 0xF00F⟩, by decide, rfl, formatXY_mask 0x9 x y 0x0⟩

theorem ldI (nnn : Addr) : Statement (.ldI nnn) :=
  ⟨⟨20, 0xA000, 0xF000⟩, by decide, rfl, formatA_mask 0xA nnn⟩

theorem jpV0 (nnn : Addr) : Statement (.jpV0 nnn) :=
  ⟨⟨21, 0xB000, 0xF000⟩, by decide, rfl, formatA_mask 0xB nnn⟩

theorem rnd (x : RegIdx) (nn : Byte) : Statement (.rnd x nn) :=
  ⟨⟨22, 0xC000, 0xF000⟩, by decide, rfl, formatXI_mask 0xC x nn⟩

theorem drw (x : RegIdx) (y : RegIdx) (n : Nibble) : Statement (.drw x y n) :=
  ⟨⟨23, 0xD000, 0xF000⟩, by decide, rfl, formatXYN_mask 0xD x y n⟩

theorem skp (x : RegIdx) : Statement (.skp x) :=
  ⟨⟨24, 0xE09E, 0xF0FF⟩, by decide, rfl, formatX_mask 0xE x 0x9E⟩

theorem sknp (x : RegIdx) : Statement (.sknp x) :=
  ⟨⟨25, 0xE0A1, 0xF0FF⟩, by decide, rfl, formatX_mask 0xE x 0xA1⟩

theorem ldVxDT (x : RegIdx) : Statement (.ldVxDT x) :=
  ⟨⟨26, 0xF007, 0xF0FF⟩, by decide, rfl, formatX_mask 0xF x 0x07⟩

theorem ldVxK (x : RegIdx) : Statement (.ldVxK x) :=
  ⟨⟨27, 0xF00A, 0xF0FF⟩, by decide, rfl, formatX_mask 0xF x 0x0A⟩

theorem ldDTVx (x : RegIdx) : Statement (.ldDTVx x) :=
  ⟨⟨28, 0xF015, 0xF0FF⟩, by decide, rfl, formatX_mask 0xF x 0x15⟩

theorem ldSTVx (x : RegIdx) : Statement (.ldSTVx x) :=
  ⟨⟨29, 0xF018, 0xF0FF⟩, by decide, rfl, formatX_mask 0xF x 0x18⟩

theorem addI (x : RegIdx) : Statement (.addI x) :=
  ⟨⟨30, 0xF01E, 0xF0FF⟩, by decide, rfl, formatX_mask 0xF x 0x1E⟩

theorem ldF (x : RegIdx) : Statement (.ldF x) :=
  ⟨⟨31, 0xF029, 0xF0FF⟩, by decide, rfl, formatX_mask 0xF x 0x29⟩

theorem ldB (x : RegIdx) : Statement (.ldB x) :=
  ⟨⟨32, 0xF033, 0xF0FF⟩, by decide, rfl, formatX_mask 0xF x 0x33⟩

theorem stRegs (x : RegIdx) : Statement (.stRegs x) :=
  ⟨⟨33, 0xF055, 0xF0FF⟩, by decide, rfl, formatX_mask 0xF x 0x55⟩

theorem ldRegs (x : RegIdx) : Statement (.ldRegs x) :=
  ⟨⟨34, 0xF065, 0xF0FF⟩, by decide, rfl, formatX_mask 0xF x 0x65⟩

end Sys2Proof.Laws.EncodesRow
end

