-- ==== Sys2Proof/Laws/Ports.lean ====
section
/-!
SUPPORT. What an edge of the port rendering does, output by output, and one lemma for each kind of edge (R180).
-/
namespace Sys2Proof.Machine

/-! ### An edge, output by output -/

@[simp] theorem edge_core (p : PortIn) (s : PortState) : (edge p s).core = (operateEdge p s).core := rfl
@[simp] theorem edge_errValid (p : PortIn) (s : PortState) : (edge p s).errValid = (operateEdge p s).errValid := rfl
@[simp] theorem edge_errCode (p : PortIn) (s : PortState) : (edge p s).errCode = (operateEdge p s).errCode := rfl
@[simp] theorem edge_errInfo (p : PortIn) (s : PortState) : (edge p s).errInfo = (operateEdge p s).errInfo := rfl
@[simp] theorem edge_fbData (p : PortIn) (s : PortState) :
    (edge p s).fbData = fbPixel p.fbAddr (operateEdge p s).core := rfl

/-! ### The four kinds of edge -/

/-- `rst` wins over everything else. -/
theorem operateEdge_rst {p : PortIn} (h : p.rst = true) (s : PortState) :
    operateEdge p s = { s with core := resetMachine s.core, errValid := false } := by
  simp [operateEdge, h]

/-- A cycle: `tick` and neither `rst` nor `ld_we`. -/
theorem operateEdge_tick {p : PortIn} (h : p.rst = false) (ht : p.tick = true) (hw : p.ldWe = false) (s : PortState) :
    operateEdge p s = tickEdge p s := by
  simp [operateEdge, h, ht, hw]

/-- `tick` and `ld_we`: no cycle and no write. -/
theorem operateEdge_blocked {p : PortIn} (h : p.rst = false) (ht : p.tick = true) (hw : p.ldWe = true)
    (s : PortState) : operateEdge p s = { s with errValid := false } := by
  simp [operateEdge, h, ht, hw]

/-- The host phase: neither `rst` nor `tick`. -/
theorem operateEdge_host {p : PortIn} (h : p.rst = false) (ht : p.tick = false) (s : PortState) :
    operateEdge p s = { s with core := hostEdge p s.core } := by
  simp [operateEdge, h, ht]

/-- All that the host phase of an edge writes: the byte of the load port and the two flags (R174, R180). -/
theorem hostEdge_eq (p : PortIn) (s : State) :
    hostEdge p s = { s with
      mem := if p.ldWe then s.mem.write p.ldAddr.toNat p.ldData else s.mem
      redraw := if p.redrawClr then false else s.redraw
      sound := if p.soundClr then false else s.sound } := by
  unfold hostEdge
  cases p.ldWe <;> cases p.redrawClr <;> cases p.soundClr <;> rfl

/-- A cycle that returned `Ok` (R177). -/
theorem tickEdge_of_ok {p : PortIn} {s : PortState} {t : State}
    (h : runCycle p.rnd (setKeys (keysOfPort p.key) s.core) = (t, .ok)) :
    tickEdge p s = { s with core := t, errValid := false } := by
  simp [tickEdge, h]

/-- A cycle that returned a fatal error (R177, R190). -/
theorem tickEdge_of_fatal {p : PortIn} {s : PortState} {t : State} {f : Fault}
    (h : runCycle p.rnd (setKeys (keysOfPort p.key) s.core) = (t, .fatal f)) :
    tickEdge p s =
      { s with core := t, errValid := true, errCode := BitVec.ofNat 3 f.code, errInfo := f.info } := by
  simp [tickEdge, h]

/-- The machine after a cycle is what the cycle left, whatever it returned. -/
theorem tickEdge_core (p : PortIn) (s : PortState) :
    (tickEdge p s).core = (runCycle p.rnd (setKeys (keysOfPort p.key) s.core)).1 := by
  unfold tickEdge
  split <;> simp_all

/-! ### The inputs and the read port -/

/-- Key `k` is bit `k` of the input. -/
@[simp] theorem keysOfPort_getElem (k : BitVec 16) (j : Nat) (h : j < 16) : (keysOfPort k)[j] = k.getLsbD j :=
  Vector.getElem_ofFn h

/-- The flat address of row `r`, column `c` reads that pixel. -/
theorem fbPixel_of_flat {addr : BitVec 11} {r : Fin 32} {c : Fin 64} (h : addr.toNat = 64 * r.val + c.val) (s : State) :
    fbPixel addr s = s.fb[r][c] := by
  have hr : addr.toNat / 64 = r.val := by omega
  have hc : addr.toNat % 64 = c.val := by omega
  simp [fbPixel, hr, hc]

end Sys2Proof.Machine
end

