-- ==== Sys2Proof/Tests/Slice0.lean ====
section
/-!
SUPPORT. Tests. Expected values are the spec's: words from 30_encoding.md R63, vectors from 95_test_vectors.md (named by
section and number). Then one witness theorem for each statement that has hypotheses.
-/
namespace Sys2Proof.Tests

open Sys2Proof Sys2Proof.Machine

/-! ### Helpers -/

/-- The start state of the vectors: after reset, the recommended FONT, `VF = 0xAA`; the random byte is `0xB7`. -/
def start : State := (State.initial recommendedFont 0xB7 0).setV 15 0xAA

/-- `start` with `V1` and `V2` given. -/
def regs (a b : Byte) : State := (start.setV 1 a).setV 2 b

/-- `start` with `V[0]` to `V[3]` given and `I` given. -/
def block (i : Word) : State :=
  ((((start.setV 0 0x11).setV 1 0x22).setV 2 0x33).setV 3 0x44).setI i

/-- `s` with bytes stored from `a` upward. -/
def store (a : Nat) (bytes : List Byte) (s : State) : State := s.setMem (s.mem.writeBlock a bytes)

/-- `s` with the listed keys down. -/
def keys (l : List Nat) (s : State) : State := setKeys (Vector.ofFn fun k : Fin 16 => l.contains k.val) s

/-- `s` with both timers given. -/
def timers (d t : Byte) (s : State) : State := (s.setDT d).setST t

/-- One cycle of the word `w`, placed where it is fetched next. -/
def run (w : Nat) (s : State) : Host.Outcome State Fault Refusal := step (s.withFetchWord 16 w)

/-- A field of the next state, if there is one. -/
def get {α : Type} (f : State → α) (o : Host.Outcome State Fault Refusal) : Option α :=
  match o with
  | .next t => some (f t)
  | .fault _ => none
  | .refused _ => none

/-- The fault, if there is one. -/
def stop (o : Host.Outcome State Fault Refusal) : Option Fault :=
  match o with
  | .next _ => none
  | .fault f => some f
  | .refused _ => none

/-- `Vx` and `VF`. -/
def vf (x : RegIdx) (s : State) : Byte × Byte := (s.V[x], s.V[(15 : RegIdx)])

/-- The pixels that are on, as row and column, among those listed. -/
def lit (l : List (Fin 32 × Fin 64)) (s : State) : List (Fin 32 × Fin 64) := l.filter fun p => s.fb[p.1][p.2]

/-- A framebuffer with every pixel on. -/
def allOn : Frame := Vector.replicate 32 (Vector.replicate 64 true)

/-- The port rendering with the machine `s`, no error reported. -/
def ports (s : State) : PortState := { core := s, errValid := false, errCode := 0, errInfo := 0xFFFF, fbData := false }

/-- How many pixels are on. -/
def count (s : State) : Nat := (s.fb.toList.map fun row => row.toList.count true).sum

/-- A sprite of one byte, `0xFF`, at column 8, row 4 (vector S4). -/
def sprite : State := store 0x300 [0xFF] ((regs 8 4).setI 0x300)

/-! ### What is ill-formed is refused -/

/-- R176, vector S6. -/
theorem test_program_of_3585_bytes_does_not_fit : programFits (List.replicate 3585 0xAA) = false := by
  rw [programFits, List.length_replicate]
  decide

/-- R176, vector S6. -/
theorem test_program_of_3584_bytes_fits : programFits (List.replicate 3584 0xAA) = true := by
  rw [programFits, List.length_replicate]
  decide

/-- R65, vectors 2.3. -/
theorem test_unknown_words_of_each_region :
    [0x0000, 0x00E1, 0x00EF, 0x0123, 0x0FFF, 0x5121, 0x512F, 0x8128, 0x812D, 0x812F, 0x9121, 0x912F, 0xE19F, 0xE100,
     0xE1A0, 0xF100, 0xF108, 0xF1FF, 0xF175, 0xF185].all (fun w => decodeTableWord 16 w == none) = true := by decide

/-- R65. -/
theorem test_unknown_word_is_named : decode 0x8128 = .error (.unknownInstruction 0x8128) := rfl

/-! ### Decoding: each word written out bit by bit from R62 and R63 -/

theorem test_decode_cls : decode 0b0000_0000_1110_0000 = .ok .cls := rfl
theorem test_decode_ret : decode 0b0000_0000_1110_1110 = .ok .ret := rfl
theorem test_decode_jp : decode 0b0001_1010_1011_1100 = .ok (.jp 0xABC) := rfl
theorem test_decode_call : decode 0b0010_1010_1011_1100 = .ok (.call 0xABC) := rfl
theorem test_decode_seImm : decode 0b0011_0001_0100_0010 = .ok (.seImm 1 0x42) := rfl
theorem test_decode_sneImm : decode 0b0100_0001_0100_0010 = .ok (.sneImm 1 0x42) := rfl
theorem test_decode_seReg : decode 0b0101_0001_0010_0000 = .ok (.seReg 1 2) := rfl
theorem test_decode_ldImm : decode 0b0110_0001_1010_1011 = .ok (.ldImm 1 0xAB) := rfl
theorem test_decode_addImm : decode 0b0111_1111_0000_0001 = .ok (.addImm 15 0x01) := rfl
theorem test_decode_ldReg : decode 0b1000_0001_0010_0000 = .ok (.ldReg 1 2) := rfl
theorem test_decode_orReg : decode 0b1000_0001_0010_0001 = .ok (.orReg 1 2) := rfl
theorem test_decode_andReg : decode 0b1000_0001_0010_0010 = .ok (.andReg 1 2) := rfl
theorem test_decode_xorReg : decode 0b1000_0001_0010_0011 = .ok (.xorReg 1 2) := rfl
theorem test_decode_addReg : decode 0b1000_1111_0001_0100 = .ok (.addReg 15 1) := rfl
theorem test_decode_subReg : decode 0b1000_0001_0010_0101 = .ok (.subReg 1 2) := rfl
theorem test_decode_shr : decode 0b1000_0001_0010_0110 = .ok (.shr 1 2) := rfl
theorem test_decode_subnReg : decode 0b1000_0001_0010_0111 = .ok (.subnReg 1 2) := rfl
theorem test_decode_shl : decode 0b1000_0001_0010_1110 = .ok (.shl 1 2) := rfl
theorem test_decode_sneReg : decode 0b1001_0001_0010_0000 = .ok (.sneReg 1 2) := rfl
theorem test_decode_ldI : decode 0b1010_0010_1111_0000 = .ok (.ldI 0x2F0) := rfl
theorem test_decode_jpV0 : decode 0b1011_0011_0000_0000 = .ok (.jpV0 0x300) := rfl
theorem test_decode_rnd : decode 0b1100_0001_0000_1111 = .ok (.rnd 1 0x0F) := rfl
theorem test_decode_drw : decode 0b1101_0001_0010_1111 = .ok (.drw 1 2 0xF) := rfl
theorem test_decode_skp : decode 0b1110_0001_1001_1110 = .ok (.skp 1) := rfl
theorem test_decode_sknp : decode 0b1110_0001_1010_0001 = .ok (.sknp 1) := rfl
theorem test_decode_ldVxDT : decode 0b1111_0001_0000_0111 = .ok (.ldVxDT 1) := rfl
theorem test_decode_ldVxK : decode 0b1111_0011_0000_1010 = .ok (.ldVxK 3) := rfl
theorem test_decode_ldDTVx : decode 0b1111_0001_0001_0101 = .ok (.ldDTVx 1) := rfl
theorem test_decode_ldSTVx : decode 0b1111_0001_0001_1000 = .ok (.ldSTVx 1) := rfl
theorem test_decode_addI : decode 0b1111_0001_0001_1110 = .ok (.addI 1) := rfl
theorem test_decode_ldF : decode 0b1111_0001_0010_1001 = .ok (.ldF 1) := rfl
theorem test_decode_ldB : decode 0b1111_0001_0011_0011 = .ok (.ldB 1) := rfl
theorem test_decode_stRegs : decode 0b1111_0010_0101_0101 = .ok (.stRegs 2) := rfl
theorem test_decode_ldRegs : decode 0b1111_0010_0110_0101 = .ok (.ldRegs 2) := rfl

/-- R43, R60: the word is one unit of 16 bits, its high byte at the lower address. -/
theorem test_table_word_high_byte_first : decodeTableWord 16 0xD12F = some (.drw 1 2 0xF) := by decide

/-! ### One cycle of each instruction -/

/-- 2.5 #15. -/
theorem test_cls_clears : get (fun t => (count t, t.redraw, t.pc, t.V[(15 : RegIdx)]))
    (run 0x00E0 (clearRedraw { start with fb := allOn })) = some (0, true, 0x202, 0xAA) := by decide

/-- 2.1 #1. -/
theorem test_ret_adds_two :
    get (fun t => (t.pc, t.sp, t.stack[0])) (run 0x00EE { start with sp := 1, stack := start.stack.set 0 0x204 }) =
    some (0x206, 0, 0x204) := by decide

/-- 2.1 #2. -/
theorem test_ret_on_empty_stack : stop (run 0x00EE start) = some (.stackUnderflow 0x00EE) := by decide

/-- 2.1 #24. -/
theorem test_jp_odd_address : get (fun t => t.pc) (run 0x1203 start) = some 0x203 := by decide

/-- 2.1 #8. -/
theorem test_call_at_15 :
    get (fun t => (t.pc, t.sp, t.stack[15])) (run 0x2ABC { start with sp := 15 }) = some (0xABC, 16, 0x200) := by decide

/-- 2.1 #9. -/
theorem test_call_on_full_stack : stop (run 0x2ABC { start with sp := 16 }) = some (.stackOverflow 0x2ABC) := by decide

/-- 2.1 #10, #11. -/
theorem test_seImm :
    (get (fun t => t.pc) (run 0x3142 (regs 0x42 0)), get (fun t => t.pc) (run 0x3142 (regs 0x43 0))) =
      (some 0x204, some 0x202) := by decide

/-- 2.1 #12, #13. -/
theorem test_sneImm :
    (get (fun t => t.pc) (run 0x4142 (regs 0x42 0)), get (fun t => t.pc) (run 0x4142 (regs 0x43 0))) =
      (some 0x202, some 0x204) := by decide

/-- 2.1 #14, #15. -/
theorem test_seReg :
    (get (fun t => t.pc) (run 0x5120 (regs 7 7)), get (fun t => t.pc) (run 0x5120 (regs 7 8))) =
      (some 0x204, some 0x202) := by decide

/-- 2.1 #17, #18. -/
theorem test_sneReg :
    (get (fun t => t.pc) (run 0x9120 (regs 7 7)), get (fun t => t.pc) (run 0x9120 (regs 7 8))) =
      (some 0x202, some 0x204) := by decide

/-- 2.1 #21. -/
theorem test_jpV0_is_not_reduced : get (fun t => t.pc) (run 0xBFFF (start.setV 0 0xFF)) = some 0x10FE := by decide

/-- 2.1 #20. -/
theorem test_jpV0_uses_V0 : get (fun t => t.pc) (run 0xB300 ((start.setV 0 4).setV 3 9)) = some 0x304 := by decide

/-- 2.2 #1. -/
theorem test_ldImm : get (vf 1) (run 0x61AB (regs 0 0)) = some (0xAB, 0xAA) := by decide

/-- 2.2 #3. -/
theorem test_addImm_wraps_without_flag : get (vf 1) (run 0x7101 (regs 0xFF 0)) = some (0, 0xAA) := by decide

/-- 2.2 #49. -/
theorem test_addImm_writes_VF_as_a_register : get (vf 15) (run 0x7F01 (start.setV 15 0xFF)) = some (0, 0) := by decide

/-- 2.2 #4. -/
theorem test_ldReg : get (vf 1) (run 0x8120 (regs 0xCA 0x53)) = some (0x53, 0xAA) := by decide

/-- 2.2 #5. -/
theorem test_orReg : get (vf 1) (run 0x8121 (regs 0xCA 0x53)) = some (0xDB, 0xAA) := by decide

/-- 2.2 #6. -/
theorem test_andReg : get (vf 1) (run 0x8122 (regs 0xCA 0x53)) = some (0x42, 0xAA) := by decide

/-- 2.2 #7. -/
theorem test_xorReg : get (vf 1) (run 0x8123 (regs 0xCA 0x53)) = some (0x99, 0xAA) := by decide

/-- 2.2 #9. -/
theorem test_addReg_carries : get (vf 1) (run 0x8124 (regs 0xFF 0x01)) = some (0, 1) := by decide

/-- 2.2 #38. -/
theorem test_addReg_flag_wins_in_VF : get (vf 15) (run 0x8F14 ((regs 1 0).setV 15 0xFF)) = some (1, 1) := by decide

/-- 2.2 #15. -/
theorem test_subReg_borrows : get (vf 1) (run 0x8125 (regs 0 1)) = some (0xFF, 0) := by decide

/-- 2.2 #14. -/
theorem test_subReg_equal_is_no_borrow : get (vf 1) (run 0x8125 (regs 5 5)) = some (0, 1) := by decide

/-- 2.2 #28. -/
theorem test_shr_ignores_y : get (vf 1) (run 0x8126 (regs 0xAA 0x55)) = some (0x55, 0) := by decide

/-- 2.2 #44. -/
theorem test_shr_of_VF : get (vf 15) (run 0x8F06 (start.setV 15 3)) = some (1, 1) := by decide

/-- 2.2 #20. -/
theorem test_subnReg_borrows : get (vf 1) (run 0x8127 (regs 1 0)) = some (0xFF, 0) := by decide

/-- 2.2 #42. -/
theorem test_subnReg_of_VF : get (vf 15) (run 0x8F17 ((regs 1 0).setV 15 2)) = some (0, 0) := by decide

/-- 2.2 #30. -/
theorem test_shl_drops_bit_7 : get (vf 1) (run 0x812E (regs 0x80 0x55)) = some (0, 1) := by decide

/-- 2.2 #33. -/
theorem test_shl_ignores_y : get (vf 1) (run 0x812E (regs 0x55 0x55)) = some (0xAA, 0) := by decide

/-- 2.2 #51: the supplied byte is 0xB7. -/
theorem test_rnd_masks : get (vf 1) (run 0xC10F (regs 0 0)) = some (7, 0xAA) := by decide

/-- 2.4 #9. -/
theorem test_ldI : get (fun t => (t.I, t.pc)) (run 0xA2F0 start) = some (0x2F0, 0x202) := by decide

/-- 2.4 #1. -/
theorem test_addI_flag_above_FFF :
    get (fun t => (t.I, t.V[(15 : RegIdx)])) (run 0xF11E ((regs 3 0).setI 0xFFE)) = some (0x1001, 1) := by decide

/-- 2.4 #5. -/
theorem test_addI_wraps :
    get (fun t => (t.I, t.V[(15 : RegIdx)])) (run 0xF11E ((regs 1 0).setI 0xFFFF)) = some (0, 0) := by decide

/-- 2.4, Fx29. -/
theorem test_ldF_whole_byte :
    get (fun t => (t.I, t.V[(15 : RegIdx)])) (run 0xF129 (regs 0xFF 0)) = some (0x4FB, 0xAA) := by decide

/-- Vector S5. -/
theorem test_ldF_points_at_glyph :
    get (fun t => t.mem.readBlock t.I.toNat 5) (run 0xF129 (regs 0x0F 0)) = some [0xF0, 0x80, 0xF0, 0x80, 0x80] :=
      by decide

/-- 2.4, Fx33. -/
theorem test_ldB_at_the_top :
    get (fun t => (t.mem.readBlock 0xFFD 3, t.I)) (run 0xF133 ((regs 123 0).setI 0xFFD)) = some ([1, 2, 3], 0xFFD) :=
      by decide

/-- 2.4, Fx33. -/
theorem test_ldB_out_of_bounds :
    stop (run 0xF133 ((regs 123 0).setI 0xFFE)) = some (.memoryOutOfBounds 0x1000) := by decide

/-- 2.4 #11. -/
theorem test_stRegs :
    get (fun t => (t.mem.readBlock 0x300 4, t.I)) (run 0xF255 (block 0x300)) = some ([0x11, 0x22, 0x33, 0], 0x303) :=
      by decide

/-- 2.4 #13. -/
theorem test_stRegs_out_of_bounds : stop (run 0xF155 (block 0xFFF)) = some (.memoryOutOfBounds 0x1000) := by decide

/-- 2.4 #17. -/
theorem test_ldRegs :
    get (fun t => (t.V.toList.take 4, t.I))
      (run 0xF265 (store 0x300 [0x11, 0x22, 0x33, 0x44] ((start.setV 3 0x99).setI 0x300))) =
    some ([0x11, 0x22, 0x33, 0x99], 0x303) := by decide

/-- 2.4 #19. -/
theorem test_ldRegs_out_of_bounds :
    stop (run 0xF065 (start.setI 0x1000)) = some (.memoryOutOfBounds 0x1000) := by decide

/-- 2.5 #1. -/
theorem test_drw_clips_right_and_sets_redraw :
    get (fun t => (count t, lit [(31, 60), (31, 63), (30, 60), (0, 0)] t, t.V[(15 : RegIdx)], t.redraw))
    (run 0xD121 (clearRedraw (store 0x300 [0xFF] ((regs 60 31).setI 0x300)))) =
      some (4, [(31, 60), (31, 63)], 0, true) := by decide

/-- 2.5 #12. -/
theorem test_drw_reads_VF_before_the_flag : get (fun t => (count t, lit [(2, 5)] t, t.V[(15 : RegIdx)]))
    (run 0xDF11 (store 0x300 [0x80] (((start.setV 15 5).setV 1 2).setI 0x300))) = some (1, [(2, 5)], 0) := by decide

/-- 2.6 #5, #6. -/
theorem test_skp : (get (fun t => t.pc) (run 0xE19E (keys [15] (regs 15 0))), stop (run 0xE19E (regs 0x10 0))) =
    (some 0x204, some (.keyIndexOutOfRange 0x10)) := by decide

/-- 2.6 #3, #4. -/
theorem test_sknp :
    (get (fun t => t.pc) (run 0xE1A1 (keys [5] (regs 5 0))), get (fun t => t.pc) (run 0xE1A1 (regs 5 0))) =
      (some 0x202, some 0x204) := by decide

/-- 2.6 #8. -/
theorem test_ldVxDT_reads_before_the_tick :
    get (fun t => (t.V[1], t.DT)) (run 0xF107 (timers 0x10 0 start)) = some (0x10, 0x0F) := by decide

/-- 2.6, wait for key, cycle 2. -/
theorem test_ldVxK_waits_and_ticks :
    get (fun t => (t.pc, t.V[3], t.DT, t.ST, t.sound)) (run 0xF30A (timers 1 1 (start.setV 3 0xAA))) =
    some (0x200, 0xAA, 0, 0, true) := by decide

/-- 2.6, variants of cycle 4. -/
theorem test_ldVxK_takes_the_highest :
    get (fun t => (t.pc, t.V[3])) (run 0xF30A (keys [2, 5, 9] start)) = some (0x202, 9) := by decide

/-- 2.6 #10. -/
theorem test_ldDTVx_ticks_at_once : get (fun t => t.DT) (run 0xF115 (regs 0x3C 0)) = some 0x3B := by decide

/-- 2.6 #11. -/
theorem test_ldSTVx_sounds_at_once :
    get (fun t => (t.ST, t.sound)) (run 0xF118 (regs 1 0)) = some (0, true) := by decide

/-- 2.6 #13. -/
theorem test_ldSTVx_zero_never_sounds :
    get (fun t => (t.ST, t.sound)) (run 0xF118 (timers 0 5 (regs 0 0))) = some (0, false) := by decide

/-! ### The cycle, reset, loader and ports -/

/-- 2.1 #23. -/
theorem test_fetch_at_the_top : stop (step (start.setPc 0xFFF)) = some (.memoryOutOfBounds 0x1000) := by decide

/-- 2.1 #21. -/
theorem test_fetch_above_the_top : stop (step (start.setPc 0x10FE)) = some (.memoryOutOfBounds 0x10FE) := by decide

/-- 2.7 #1. -/
theorem test_reset_then_cycle : stop (step State.reset) = some (.unknownInstruction 0x0000) := by decide

/-- R22. -/
theorem test_reset_values :
    (State.reset.pc, State.reset.redraw, State.reset.sound, State.reset.sp, State.reset.I, State.reset.mem.read 0x200) =
    (0x200, true, false, 0, 0, 0) := by decide

/-- 2.2 #1, after reset. -/
theorem test_table_word_runs_from_reset :
    get (fun t => (t.V[1], t.pc)) (step (State.reset.withFetchWord 16 0x61AB)) = some (0xAB, 0x202) := by decide

/-- Vector S6. -/
theorem test_load_of_3585_bytes : load (List.replicate 3585 0xAA) start = (resetMachine start, .romTooLarge) := by
  unfold load
  rw [if_neg]
  rw [test_program_of_3585_bytes_does_not_fit]
  decide

/-- 2.7 #5. -/
theorem test_load_of_two_bytes : (load [0x12, 0x00] start).1.mem.readBlock 0x200 3 = [0x12, 0x00, 0] := by decide

/-- R190. -/
theorem test_error_codes :
    [Fault.unknownInstruction 0, .stackOverflow 0, .stackUnderflow 0, .memoryOutOfBounds 0, .keyIndexOutOfRange 0].map
      Fault.code = [1, 2, 3, 4, 5] := by decide

/-- R180, R190: the word at 0x200 is 0x0000. -/
theorem test_port_reports_a_fatal_error :
    (fun p : PortState => (p.errValid, p.errCode, p.errInfo, p.core.pc))
      (edge { idlePorts with tick := true } (ports start)) =
    (true, 1, 0, 0x200) := by decide

/-- R180, vector S4: the draw turns on columns 8 to 15 of row 4, flat addresses 264 to 271. -/
theorem test_port_reads_the_sampled_pixel :
    (edge { idlePorts with tick := true, fbAddr := 264 } (ports (sprite.withFetchWord 16 0xD121))).fbData = true ∧
    (edge { idlePorts with tick := true, fbAddr := 272 } (ports (sprite.withFetchWord 16 0xD121))).fbData = false :=
      by decide

/-- R180: `key[k]` is bit `k`. -/
theorem test_port_key_bits :
    (keysOfPort 0x8001).toList.count true = 2 ∧ (keysOfPort 0x8001)[15] = true ∧
      (keysOfPort 0x8001)[0] = true := by decide

/-! ### Witnesses: a state and operands that meet the hypotheses of each statement, clause by clause -/

theorem witness_EncodeOfDecodeIsWord : decode 0x812E = .ok (.shl 1 2) := rfl

theorem witness_DecodeAgreesWithOpcodeTable :
    (⟨18, 0x800E, 0xF00F⟩ : OpcodeRow) ∈ opcodeTable ∧ (0x812E : Word) &&& 0xF00F = 0x800E := by decide

/-- The first region; the others are in `test_unknown_words_of_each_region`. -/
theorem witness_UnknownWordsAreTheListedRegions :
    decode 0x00E1 = .error (.unknownInstruction 0x00E1) ∧ (0x00E1 : Word).toNat / 0x1000 = 0 ∧
      (0x00E1 : Word).toNat ≠ 0x00E0 := ⟨rfl, by decide, by decide⟩

/-- `F155` at the top of memory, with `I` at `0xFFF`. -/
def topFault : State := (store 0xFFE [0xF1, 0x55] ((block 0xFFF).setPc 0xFFE))
/-- `71FF` at the top of memory. -/
def topNext : State := store 0xFFE [0x71, 0xFF] (start.setPc 0xFFE)

/-- The highest pc a fetch can use. -/
theorem witness_StepRunsDecodedInstruction_next :
    topNext.pc.toNat + 1 ≤ 4095 ∧ decode (topNext.mem.read 0xFFE ++ topNext.mem.read 0xFFF) = .ok (.addImm 1 0xFF) ∧
    ∃ t, exec (.addImm 1 0xFF) topNext = .next t := ⟨by decide, rfl, _, rfl⟩

theorem witness_StepRunsDecodedInstruction_fault :
    topFault.pc.toNat + 1 ≤ 4095 ∧ decode (topFault.mem.read 0xFFE ++ topFault.mem.read 0xFFF) = .ok (.stRegs 1) ∧
    exec (.stRegs 1) topFault = .fault (.memoryOutOfBounds 0x1000) := ⟨by decide, rfl, rfl⟩

/-- Both sides of each boundary. -/
theorem witness_FetchIsBigEndianAndBounded :
    (start.setPc 0xFFE).pc.toNat + 1 ≤ 4095 ∧ 0xFFF ≤ (start.setPc 0xFFF).pc.toNat ∧
      ¬ 4095 < (start.setPc 0xFFF).pc.toNat ∧
    4095 < (start.setPc 0x1000).pc.toNat := by decide

theorem witness_UnknownInstructionIsFatal :
    State.reset.fetch = .ok 0x0000 ∧ ∀ i, decode 0x0000 ≠ .ok i := ⟨rfl, fun i h => by cases h⟩

/-- `ST` goes to 0. -/
theorem witness_TimersTickAtTheEndOfEveryCycle :
    ∃ t, step ((timers 1 1 start).withFetchWord 16 0x71FF) = .next t ∧ t.sound = true := ⟨_, rfl, rfl⟩

theorem witness_FaultingCycleChangesNothing : (runCycle 0 State.reset).2 = .fatal (.unknownInstruction 0x0000) := rfl

theorem witness_FaultRepeatsWhateverTheHostWrites : step State.reset = .fault (.unknownInstruction 0x0000) := rfl

/-- Also `CycleKeepsKeysFontAndRaisedFlags`. -/
theorem witness_HostFlagsDoNotAffectExecution : ∃ t, step (start.withFetchWord 16 0x71FF) = .next t := ⟨_, rfl⟩

/-- Raised flags. -/
theorem witness_CycleKeepsKeysFontAndRaisedFlags :
    start.redraw = true ∧ (State.timerTick (timers 0 1 start)).sound = true := by decide

theorem witness_FatalConditionsAreExact_stack :
    exec (.call 0xABC) { start with sp := 16 } = .fault (.stackOverflow 0x2ABC) ∧
    exec .ret start = .fault (.stackUnderflow 0x00EE) := ⟨rfl, rfl⟩

theorem witness_FatalConditionsAreExact_memory :
    exec (.drw 1 2 15) (start.setI 0xFF2) = .fault (.memoryOutOfBounds 0x1000) ∧
    exec (.ldB 1) (start.setI 0xFFFF) = .fault (.memoryOutOfBounds 0xFFFF) ∧
    exec (.stRegs 15) (start.setI 0xFF1) = .fault (.memoryOutOfBounds 0x1000) ∧
    exec (.ldRegs 0) (start.setI 0x1000) = .fault (.memoryOutOfBounds 0x1000) := ⟨rfl, rfl, rfl, rfl⟩

theorem witness_FatalConditionsAreExact_key : exec (.skp 1) (regs 0x10 0) = .fault (.keyIndexOutOfRange 0x10) ∧
    exec (.sknp 1) (regs 0xFF 0) = .fault (.keyIndexOutOfRange 0xFF) := ⟨rfl, rfl⟩

/-- Each named writer does write. -/
theorem witness_OnlyListedInstructionsWriteEachElement_memory :
    get (fun t => (t.mem != start.mem, t.I != 0x300)) (exec (.stRegs 2) (block 0x300)) = some (true, true) ∧
    get (fun t => t.mem != start.mem) (exec (.ldB 1) ((regs 123 0).setI 0x300)) = some true := by decide

theorem witness_OnlyListedInstructionsWriteEachElement_index :
    get (fun t => t.I) (exec (.ldI 0x2F0) start) = some 0x2F0 ∧
      get (fun t => t.I) (exec (.addI 1) (regs 3 0)) = some 3 ∧
    get (fun t => t.I) (exec (.ldF 1) (regs 1 0)) = some 5 ∧
      get (fun t => t.I) (exec (.ldRegs 1) start) = some 2 := by decide

theorem witness_OnlyListedInstructionsWriteEachElement_stack :
    get (fun t => (t.stack != start.stack, t.sp)) (exec (.call 0xABC) start) = some (true, 1) ∧
    get (fun t => t.sp) (exec .ret { start with sp := 1 }) = some 0 := by decide

/-- With `I = 0` the sprite byte is the first of the recommended FONT, `0xF0`. -/
theorem witness_OnlyListedInstructionsWriteEachElement_display :
    get (fun t => t.redraw) (exec .cls (clearRedraw start)) = some true ∧
    get (fun t => (count t, t.redraw)) (exec (.drw 1 2 1) (clearRedraw start)) = some (4, true) := by decide

theorem witness_OnlyListedInstructionsWriteEachElement_timers :
    get (fun t => t.DT) (exec (.ldDTVx 1) (regs 9 0)) = some 9 ∧
      get (fun t => t.ST) (exec (.ldSTVx 1) (regs 9 0)) = some 9 := by decide

theorem witness_OnlyListedInstructionsWriteEachElement_rnd :
    get (fun t => t.drawn) (exec (.rnd 1 0xFF) start) = some 1 ∧ start.drawn = 0 := by decide

/-- Both ways to meet the hypotheses: a register below `VF`, and `VF` itself. -/
theorem witness_RegistersOutsideTheDestinationsAreKept :
    namesDest 2 (.addReg 1 2) = false ∧ (2 : RegIdx) ≠ 15 ∧ (∃ t, exec (.addReg 1 2) start = .next t) ∧
    namesDest 15 (.ldImm 1 0) = false ∧ flagWriter (.ldImm 1 0) = false ∧
      ∃ t, exec (.ldImm 1 0) start = .next t := ⟨by decide, by decide, ⟨_, rfl⟩, by decide, by decide, _, rfl⟩

theorem witness_FlagWritersLeaveZeroOrOneInVF :
    get (vf 15) (exec (.addReg 15 1) ((regs 1 0).setV 15 0xFF)) = some (1, 1) ∧ flagWriter (.addReg 15 1) = true ∧
    get (vf 15) (exec (.drw 15 15 0) start) = some (0, 0) ∧ flagWriter (.drw 15 15 0) = true := by decide

theorem witness_ProgramCounterPolicy :
    pcKind .cls = .sequential ∧ get (fun t => t.pc) (exec .cls start) = some 0x202 ∧ pcKind (.seImm 1 0) = .skip ∧
    get (fun t => t.pc) (exec (.seImm 1 0) start) = some 0x204 ∧
      get (fun t => t.pc) (exec (.ldVxK 1) start) = some 0x200 := by decide

theorem witness_NonStoringInstructionsKeepEveryByte :
    (∀ x, Instr.ldI 0x300 ≠ .ldB x) ∧ (∀ x, Instr.ldI 0x300 ≠ .stRegs x) ∧
      ∃ t, exec (.ldI 0x300) start = .next t := ⟨nofun, nofun, _, rfl⟩

theorem witness_RetPopsTheTopEntryAndAddsTwo : ({ start with sp := 1 } : State).sp.val = (0 : Fin 16).val + 1 ∧
    ({ start with sp := 16 } : State).sp.val = (15 : Fin 16).val + 1 ∧ start.sp.val = 0 := by decide

/-- Also `CallThenRetResumesAfterTheCall`. -/
theorem witness_CallPushesItsOwnAddress :
    start.sp.val = (0 : Fin 16).val ∧ ({ start with sp := 15 } : State).sp.val = (15 : Fin 16).val ∧
    ({ start with sp := 16 } : State).sp.val = 16 ∧ (1 : Fin 16) ≠ 0 := by decide

/-- `AddRegistersWithCarry`, `SubtractionsWithNoBorrowFlag`, `ShiftsByOneKeepTheLostBit` and the statements like
them: `x = 1`, `k = 2`. -/
theorem witness_OtherThanDestination : (2 : RegIdx) ≠ 1 ∧ (2 : RegIdx) ≠ 15 ∧ (1 : RegIdx) ≠ 15 := by decide

theorem witness_PointAtGlyph :
    (∀ a : Fin 80, start.mem.read a.val = start.mem.font[a]) ∧ (regs 0 0).V[(1 : RegIdx)].toNat = (0 : Fin 16).val ∧
      (regs 15 0).V[(1 : RegIdx)].toNat = (15 : Fin 16).val := by decide

/-- A cycle that runs LD F meets the premise: FONT is there beside a program. -/
theorem witness_PointAtGlyph_program_loaded :
    ∀ a : Fin 80, (start.withFetchWord 16 0xF129).mem.read a.val = (start.withFetchWord 16 0xF129).mem.font[a] :=
      by decide

/-- The highest base in bounds; addresses below and above a block. -/
theorem witness_StoreDecimalDigits :
    (start.setI 0xFFD).mem.wf = true ∧ (start.setI 0xFFD).base + 2 ≤ 4095 ∧ (0xFFC : Nat) < (start.setI 0xFFD).base ∧
    (start.setI 0xFFC).base + 2 < 0xFFF := by decide

/-- Also `StoredBlockLoadsBack`. -/
theorem witness_StoreRegisterBlock :
    (block 0xFF0).mem.wf = true ∧ (block 0xFF0).base + (15 : RegIdx).val ≤ 4095 ∧ (0 : RegIdx) ≤ 15 ∧
      (15 : RegIdx) ≤ 15 ∧
    (0xFEF : Nat) < (block 0xFF0).base ∧ (block 0xFF0).base + (14 : RegIdx).val < 0xFFF := by decide

theorem witness_LoadRegisterBlock :
    (block 0xFFF).base + (0 : RegIdx).val ≤ 4095 ∧ (0 : RegIdx) ≤ 0 ∧ (0 : RegIdx) < 1 := by decide

/-- LD [I]: the last byte of memory is stored, the byte before it kept. -/
theorem witness_StoreIsSeenByTheNextFetch :
    (block 0xFFF).mem.wf = true ∧ ((block 0xFFF).setPc 0xFFC).pc.toNat + 3 ≤ 4095 ∧
      (block 0xFFF).base + (0 : RegIdx).val ≤ 4095 ∧
    (block 0xFFF).base + (0 : RegIdx).val = ((block 0xFFF).setPc 0xFFC).pc.toNat + 3 ∧
    ((block 0xFFF).setPc 0xFFC).pc.toNat + 2 < (block 0xFFF).base ∧ (0 : RegIdx) ≤ 0 := by decide

/-- The store of program P5, which covers both bytes; LD B at the same place. -/
theorem witness_StoreIsSeenByTheNextFetch_both_bytes :
    (block 0x202).base + (0 : RegIdx).val = (block 0x202).pc.toNat + 2 ∧
      (block 0x202).base + (1 : RegIdx).val = (block 0x202).pc.toNat + 3 ∧
    (block 0x202).base + 2 ≤ 4095 := by decide

/-- LD B: each way to cover one byte or both, and a byte it leaves. -/
theorem witness_StoreIsSeenByTheNextFetch_digits :
    (block 0x201).base + 1 = (block 0x201).pc.toNat + 2 ∧ (block 0x200).base + 2 = (block 0x200).pc.toNat + 2 ∧
    (block 0x200).base + 2 < (block 0x200).pc.toNat + 3 ∧ (block 0x203).base = (block 0x203).pc.toNat + 3 ∧
      (block 0x203).pc.toNat + 2 < (block 0x203).base := by decide

/-- No byte read with any `I`; 15 bytes read up to the last address. -/
theorem witness_DrawTogglesExactlyTheSpritePixels_bounds :
    (0 : Nibble).toNat = 0 ∧ (start.setI 0xFF1).base + (15 : Nibble).toNat - 1 ≤ 4095 := by decide

/-- A pixel the sprite sets and one it does not. -/
theorem witness_DrawTogglesExactlyTheSpritePixels_pixels :
    SpriteSets sprite 1 2 1 4 8 ∧ sprite.fb[(4 : Fin 32)][(8 : Fin 64)] = false ∧ ¬ SpriteSets sprite 1 2 1 4 16 := by
  refine ⟨⟨0, 0, by decide, by decide, by decide, by decide, by decide⟩, by decide, ?_⟩
  rintro ⟨k, j, -, hj, h, -, -⟩
  have h8 : (sprite.getV 1).toNat = 8 := by decide
  rw [h8] at h
  simp at h
  omega

/-- The sprite on a framebuffer with every pixel on: the hit clause. -/
theorem witness_DrawTogglesExactlyTheSpritePixels_collision :
    SpriteSets sprite 1 2 1 4 8 ∧ sprite.base + (1 : Nibble).toNat - 1 ≤ 4095 ∧
    ({ sprite with fb := allOn } : State).fb[(4 : Fin 32)][(8 : Fin 64)] = true :=
      ⟨⟨0, 0, by decide, by decide, by decide, by decide, by decide⟩, by decide, by decide⟩

/-- Also `SecondDrawAlwaysCollides`. -/
theorem witness_DrawTwiceRestoresTheScreen :
    (1 : RegIdx) ≠ 15 ∧ (2 : RegIdx) ≠ 15 ∧ sprite.base + (1 : Nibble).toNat - 1 ≤ 4095 ∧
    ∃ t u, exec (.drw 1 2 1) sprite = .next t ∧ exec (.drw 1 2 1) t = .next u ∧ SpriteSets sprite 1 2 1 4 8 :=
  ⟨by decide, by decide, by decide, _, _, rfl, rfl, 0, 0, by decide, by decide, by decide, by decide, by decide⟩

theorem witness_KeySkipsReadTheNamedKey :
    (regs 0 0).V[(1 : RegIdx)].toNat = (0 : Fin 16).val ∧ (regs 15 0).V[(1 : RegIdx)].toNat = (15 : Fin 16).val ∧
    15 < (regs 16 0).V[(1 : RegIdx)].toNat := by decide

/-- Also `ReadDelayTimerBeforeTheTick`. -/
theorem witness_TimerWritesTickInTheirOwnCycle : (start.withFetchWord 16 0xF107).fetchInstr = .ok (.ldVxDT 1) ∧
    (start.withFetchWord 16 0xF115).fetchInstr = .ok (.ldDTVx 1) ∧
    (start.withFetchWord 16 0xF118).fetchInstr = .ok (.ldSTVx 1) := ⟨rfl, rfl, rfl⟩

/-- The lowest and the highest key. -/
theorem witness_WaitForKeyTakesTheHighest_pressed :
    (keys [0] start).key[(0 : Fin 16)] = true ∧ (∀ k : Fin 16, 0 < k → (keys [0] start).key[k] = false) ∧
    (keys [2, 15] start).key[(15 : Fin 16)] = true ∧
      ∀ k : Fin 16, 15 < k → (keys [2, 15] start).key[k] = false := by decide

theorem witness_WaitForKeyTakesTheHighest_none :
    (∀ k : Fin 16, start.key[k] = false) ∧
      (start.withFetchWord 16 0xF30A).fetchInstr = .ok (.ldVxK 3) := ⟨by decide, rfl⟩

/-- Also `HostOperationsKeepTheInvariant`. -/
theorem witness_CycleKeepsTheInvariant :
    (start.withFetchWord 16 0xBFFF).Inv ∧ ∃ t, step (start.withFetchWord 16 0xBFFF) = .next t := ⟨by decide, _, rfl⟩

theorem witness_ReachableStatesMeetTheInvariant :
    Reachable (load [0x12, 0x00] (State.initial recommendedFont 0 0)).1 := .load _ _ (.start _ _ _)

theorem witness_ReachableStatesMeetTheInvariant_cycle :
    ∃ s t, Reachable s ∧ runCycle 0 s = (t, .ok) := ⟨_, _, witness_ReachableStatesMeetTheInvariant, rfl⟩

/-- Every state meets the hypothesis for one `t`. -/
theorem witness_InitializeGivesTheResetTable : resetMachine start = State.initial recommendedFont 0xB7 0 := rfl

theorem witness_LoadPlacesTheProgramOrRejectsIt :
    (List.replicate 3584 (0xAA : Byte)).length ≤ 3584 ∧ 3584 < (List.replicate 3585 (0xAA : Byte)).length ∧
    (511 : Nat) < 512 ∧ 512 + [0x12, (0x00 : Byte)].length ≤ 514 := by
  simp only [List.length_replicate]
  decide

theorem witness_PlacedWordIsTheNextFetched :
    start.mem.wf = true ∧ decode 0x71FF = .ok (.addImm 1 0xFF) ∧ start.pc.toNat + 1 ≤ 4095 ∧
      ¬ (start.setPc 0xFFF).pc.toNat + 1 ≤ 4095 := ⟨by decide, rfl, by decide, by decide⟩

theorem witness_PlacedWordIsTheNextFetched_unknown : ∀ i, decode 0x8128 ≠ .ok i := fun i h => by cases h

theorem witness_PortLoadIsLoad : programFits [0x12, 0x00] = true := by decide

theorem witness_HostWritesChangeOnlyTheirElement : idlePorts.rst = false ∧ idlePorts.tick = false ∧
    (edge { idlePorts with redrawClr := true } (ports start)).core.redraw = false ∧
    (edge { idlePorts with soundClr := true } (ports start)).core.redraw = true := by decide

/-- The last address, written through the load port. -/
theorem witness_HostWritesChangeOnlyTheirElement_load : (ports start).core.mem.wf = true ∧
    (edge { idlePorts with ldWe := true, ldAddr := 0xFFF, ldData :=
      0x5A } (ports start)).core.mem.read 0xFFF = 0x5A ∧ (0xFFE : Nat) ≠ (0xFFF : BitVec 12).toNat := by decide

theorem witness_PortEdgesReportTheCyclesResult_fatal :
    (∀ j : Fin 16, (keysOfPort 0)[j] = (0 : BitVec 16).getLsbD j.val) ∧
    (runCycle 0 (setKeys (keysOfPort 0) start)).2 = .fatal (.unknownInstruction 0x0000) := ⟨by decide, rfl⟩

/-- The other four errors. -/
theorem witness_PortEdgesReportTheCyclesResult_codes :
    stop (run 0x2ABC { start with sp := 16 }) = some (.stackOverflow 0x2ABC) ∧
      stop (run 0x00EE start) = some (.stackUnderflow 0x00EE) ∧
    stop (run 0xF065 (start.setI 0xFFFF)) = some (.memoryOutOfBounds 0xFFFF) ∧
      stop (run 0xE19E (regs 0x10 0)) = some (.keyIndexOutOfRange 0x10) := by decide

theorem witness_PortEdgesReportTheCyclesResult_ok :
    (runCycle 0 (setKeys (keysOfPort 0) (start.withFetchWord 16 0x71FF))).2 = .ok := rfl

/-- The first and the last pixel. -/
theorem witness_PortReadShowsTheSampledPixel :
    (0 : BitVec 11).toNat = 64 * (0 : Fin 32).val + (0 : Fin 64).val ∧
      (2047 : BitVec 11).toNat = 64 * (31 : Fin 32).val + (63 : Fin 64).val := by decide

end Sys2Proof.Tests
end

section
/-!
PROOF. Which general registers an instruction keeps: all but the destinations its rule names and, under the flag writers of
R12, `VF` (00_scope.md R7, 10_state.md R11, R12).
-/
namespace Sys2Proof.Machine

/-- A register that a flag writer must keep is not `VF` (R12). -/
theorem ne_regF_of_flagWriter {i : Instr} {k : RegIdx} (hw : flagWriter i = true)
    (hf : k = 15 → flagWriter i = false) : k ≠ regF := fun hk =>
  Bool.false_ne_true ((hf hk).symm.trans hw)

/-- The flag is written to `VF` only (R12). -/
theorem State.getV_setFlag_of_ne (s : State) {k : RegIdx} (h : k ≠ regF) (c : Bool) :
    (s.setFlag c).getV k = s.getV k :=
  s.getV_setV_of_ne h _

/-- A result with its flag is written to `Vx` and `VF` only (R12, R84). -/
theorem State.getV_setV_setFlag_of_ne (s : State) {x k : RegIdx} (hx : k ≠ x) (hF : k ≠ regF) (v : Byte) (c : Bool) :
    ((s.setV x v).setFlag c).getV k = s.getV k :=
  ((s.setV x v).getV_setFlag_of_ne hF c).trans (s.getV_setV_of_ne hx v)

/-- The registers above `Vx` are not loaded (R145). -/
theorem State.loadBlock_getElem_of_not_le (s : State) {x k : RegIdx} (h : ¬ k ≤ x) (a : Nat) :
    (s.loadBlock x a)[k] = s.getV k :=
  (s.loadBlock_getElem x a k).trans (if_neg h)

/-- A register that is no destination, and not `VF` under a flag writer, reads as before. The cases are grouped by what the
instruction's rule writes: no register, `Vx`, `Vx` and the flag, the flag, the register block. -/
theorem exec_getV_of_not_dest {i : Instr} {s t : State} {k : RegIdx} (h : exec i s = .next t)
    (hd : namesDest k i = false) (hf : k = 15 → flagWriter i = false) : t.getV k = s.getV k := by
  cases i with
  | cls | jp | seImm | sneImm | seReg | sneReg | ldI | jpV0 | ldDTVx | ldSTVx | ldF => cases h; rfl
  | ret => obtain ⟨_, rfl⟩ := execRet_next h; rfl
  | call => obtain ⟨_, rfl⟩ := execCall_next h; rfl
  | skp => obtain ⟨_, rfl⟩ := execSkp_next h; rfl
  | sknp => obtain ⟨_, rfl⟩ := execSknp_next h; rfl
  | ldB | stRegs => obtain ⟨-, hgo⟩ := guardBlock_next h; cases hgo; rfl
  | ldImm x | addImm x | ldReg x | orReg x | andReg x | xorReg x | rnd x | ldVxDT x =>
    cases h
    exact s.getV_setV_of_ne (of_decide_eq_false hd) _
  | ldVxK x =>
    obtain rfl | ⟨_, rfl⟩ := execLdVxK_next h
    · rfl
    · exact s.getV_setV_of_ne (of_decide_eq_false hd) _
  | addReg x | subReg x | shr x | subnReg x | shl x =>
    cases h
    exact s.getV_setV_setFlag_of_ne (of_decide_eq_false hd) (ne_regF_of_flagWriter rfl hf) _ _
  | addI =>
    cases h
    exact (s.setI _).getV_setFlag_of_ne (ne_regF_of_flagWriter rfl hf) _
  | drw =>
    obtain ⟨-, hgo⟩ := guardBlock_next h
    cases hgo
    exact (s.setFb _).getV_setFlag_of_ne (ne_regF_of_flagWriter rfl hf) _
  | ldRegs x =>
    obtain ⟨-, hgo⟩ := guardBlock_next h
    cases hgo
    exact s.loadBlock_getElem_of_not_le (of_decide_eq_false hd) _

/-- Settles O16: by the groups of `exec_getV_of_not_dest`. -/
theorem registersOutsideTheDestinationsAreKept : Obligations.RegistersOutsideTheDestinationsAreKept := by
  unfold Obligations.RegistersOutsideTheDestinationsAreKept
  intro i s t k h hd hf
  exact exec_getV_of_not_dest h hd hf

end Sys2Proof.Machine
end

section
/-!
PROOF. Which elements of the state an instruction writes (10_state.md R10), and what a cycle therefore keeps: the keys,
FONT, and a flag that is raised (R18, R20, R23).
-/
namespace Sys2Proof.Machine

/-- The writer column of R10: the elements, beside the general registers and `pc`, that the next state of `i` may hold
anew. What a storing instruction puts into memory, and a call onto the stack, is said too. -/
inductive Writes (s : State) : Instr → State → Prop where
  /-- Nothing but general registers and `pc`. -/
  | registers (i : Instr) (V : Vector Byte 16) (pc : Word) : Writes s i { s with V := V, pc := pc }
  /-- The index register (R13). -/
  | index (i : Instr) (V : Vector Byte 16) (I pc : Word)
      (hi : (∃ nnn, i = .ldI nnn) ∨ ∃ x, i = .addI x ∨ i = .ldF x ∨ i = .ldRegs x) :
      Writes s i { s with V := V, I := I, pc := pc }
  /-- The three digits of `Fx33`, inside the memory (R143). -/
  | digits (x : RegIdx) (pc : Word) (hb : s.base + (decimalDigits (s.getV x)).length ≤ 4096) :
      Writes s (.ldB x) { s with mem := s.mem.writeBlock s.base (decimalDigits (s.getV x)), pc := pc }
  /-- The register block of `Fx55`, inside the memory, and the index register (R144). -/
  | block (x : RegIdx) (I pc : Word) (hb : s.base + (s.regBlock x).length ≤ 4096) :
      Writes s (.stRegs x) { s with mem := s.mem.writeBlock s.base (s.regBlock x), I := I, pc := pc }
  /-- The call's own address in the slot `sp`, and `sp` (R102). -/
  | push (nnn : Addr) (hs : s.sp.val < 16) (pc : Word) :
      Writes s (.call nnn) { s with
        stack := s.stack.set s.sp.val s.pc, sp := ⟨s.sp.val + 1, by omega⟩, pc := pc }
  /-- The stack pointer (R100). -/
  | pop (sp : Fin 17) (pc : Word) : Writes s .ret { s with sp := sp, pc := pc }
  /-- The framebuffer, with a repaint requested (R17, R20). -/
  | screen (i : Instr) (V : Vector Byte 16) (fb : Frame) (pc : Word)
      (hi : i = .cls ∨ ∃ x y n, i = .drw x y n) :
      Writes s i { s with V := V, fb := fb, redraw := true, pc := pc }
  /-- The delay timer (R19). -/
  | delay (x : RegIdx) (v : Byte) (pc : Word) : Writes s (.ldDTVx x) { s with DT := v, pc := pc }
  /-- The sound timer (R19). -/
  | tone (x : RegIdx) (v : Byte) (pc : Word) : Writes s (.ldSTVx x) { s with ST := v, pc := pc }
  /-- The model's own random input (log 2). -/
  | random (x : RegIdx) (nn : Byte) (V : Vector Byte 16) (pc : Word) (r : Byte) (d : Nat) :
      Writes s (.rnd x nn) { s with V := V, pc := pc, rnd := r, drawn := d }

/-- A byte has three decimal digits (R143). -/
@[simp] theorem decimalDigits_length (v : Byte) : (decimalDigits v).length = 3 := rfl

/-- Every instruction that answers a next state keeps to the writer column of R10. -/
theorem exec_writes {i : Instr} {s t : State} (h : exec i s = .next t) : Writes s i t := by
  cases i with
  | jp | jpV0 | seImm | sneImm | seReg | sneReg | ldImm | addImm | ldReg | orReg | andReg | xorReg | addReg | subReg
  | shr | subnReg | shl | ldVxDT => cases h; exact .registers _ _ _
  | skp => obtain ⟨_, rfl⟩ := execSkp_next h; exact .registers _ _ _
  | sknp => obtain ⟨_, rfl⟩ := execSknp_next h; exact .registers _ _ _
  | ldVxK => obtain rfl | ⟨_, rfl⟩ := execLdVxK_next h <;> exact .registers _ _ _
  | ldI | addI | ldF => cases h; exact .index _ _ _ _ (by simp)
  | ldRegs => obtain ⟨-, hgo⟩ := guardBlock_next h; cases hgo; exact .index _ _ _ _ (by simp)
  | ldB => obtain ⟨hb, hgo⟩ := guardBlock_next h; cases hgo; exact .digits _ _ (by simpa using hb)
  | stRegs => obtain ⟨hb, hgo⟩ := guardBlock_next h; cases hgo; exact .block _ _ _ (by simpa [blockLen] using hb)
  | call => obtain ⟨hs, rfl⟩ := execCall_next h; exact .push _ hs _
  | ret => obtain ⟨_, rfl⟩ := execRet_next h; exact .pop _ _
  | cls => cases h; exact .screen _ _ _ _ (by simp)
  | drw => obtain ⟨-, hgo⟩ := guardBlock_next h; cases hgo; exact .screen _ _ _ _ (by simp)
  | ldDTVx => cases h; exact .delay _ _ _
  | ldSTVx => cases h; exact .tone _ _ _
  | rnd => cases h; exact .random _ _ _ _ _ _

/-- Settles O15: by the cases of `Writes`; an element that a case does not write is the old one. -/
theorem onlyListedInstructionsWriteEachElement : Obligations.OnlyListedInstructionsWriteEachElement := by
  unfold Obligations.OnlyListedInstructionsWriteEachElement
  intro i s t h
  cases exec_writes h with
  | registers | digits | block | push | pop | delay | tone | random => simp
  | index _ _ _ _ hi => obtain ⟨_, rfl⟩ | ⟨_, rfl | rfl | rfl⟩ := hi <;> simp
  | screen _ _ _ _ hi => simp [hi]

/-! ### What a whole cycle keeps -/

variable {s t : State} {i : Instr}

theorem Writes.key_eq (w : Writes s i t) : t.key = s.key := by
  cases w <;> rfl

theorem Writes.sound_eq (w : Writes s i t) : t.sound = s.sound := by
  cases w <;> rfl

theorem Writes.font_eq (w : Writes s i t) : t.mem.font = s.mem.font := by
  cases w with
  | digits | block => exact s.mem.writeBlock_font _ _
  | registers | index | push | pop | screen | delay | tone | random => rfl

/-- No instruction clears a repaint request (R20). -/
theorem Writes.redraw_of_redraw (w : Writes s i t) (h : s.redraw = true) : t.redraw = true := by
  cases w with
  | screen => rfl
  | registers | index | digits | block | push | pop | delay | tone | random => exact h

/-- The tick sets `sound` or keeps it (R86). -/
theorem State.timerTick_sound_of_sound (h : s.sound = true) : s.timerTick.sound = true := by
  simp [h]

/-- Settles O20: no instruction writes the keys, FONT or `sound` or clears `redraw`, and the tick clears neither flag. -/
theorem cycleKeepsKeysFontAndRaisedFlags : Obligations.CycleKeepsKeysFontAndRaisedFlags := by
  unfold Obligations.CycleKeepsKeysFontAndRaisedFlags
  intro s t h
  obtain ⟨i, u, -, hu, rfl⟩ := step_next h
  have w := exec_writes hu
  exact ⟨w.key_eq, w.font_eq, w.redraw_of_redraw, fun hs => u.timerTick_sound_of_sound (w.sound_eq.trans hs)⟩

end Sys2Proof.Machine
end

section
/-!
PROOF. The flag that the seven instructions of 10_state.md R12 write.
-/
namespace Sys2Proof.Machine

/-- A flag just written to `VF` is 0 or 1, whatever the register held (R12). -/
theorem State.getV_regF_setFlag (s : State) (c : Bool) :
    (s.setFlag c).getV regF = 0 ∨ (s.setFlag c).getV regF = 1 := by
  rw [s.getV_setFlag, if_pos rfl]
  cases c
  · exact .inl rfl
  · exact .inr rfl

/-- Settles O17: each of the seven writes the flag last, so that it stands in `VF` with `x = F` too. -/
theorem flagWritersLeaveZeroOrOneInVF : Obligations.FlagWritersLeaveZeroOrOneInVF := by
  unfold Obligations.FlagWritersLeaveZeroOrOneInVF
  intro i s t hw h
  cases i with
  | addReg | subReg | shr | subnReg | shl | addI => cases h; exact State.getV_regF_setFlag _ _
  | drw => obtain ⟨-, hgo⟩ := guardBlock_next h; cases hgo; exact State.getV_regF_setFlag _ _
  | _ => cases hw

end Sys2Proof.Machine
end

section
/-!
PROOF. The invariant of the machine (10_state.md R14, R15; log 18): it holds after reset, and every cycle and every host
operation keeps it.
-/
namespace Sys2Proof.Machine

/-! ### The program counter an instruction leaves (R83) -/

/-- A skip moves `pc` by 4 or 2 (R83). -/
theorem skipLength_le (c : Bool) : (if c then 4 else 2 : Word).toNat ≤ 4 := by
  cases c <;> decide

/-- All that an instruction can leave in `pc` (R83): the old `pc` moved on by at most 4, the target of a jump or a call, or
a stack entry plus 2. -/
theorem exec_pc_cases {i : Instr} {s t : State} (h : exec i s = .next t) :
    (∃ d : Word, d.toNat ≤ 4 ∧ t.pc = s.pc + d) ∨
    (∃ nnn, t.pc = addrOperand nnn ∨ t.pc = jumpOffset s nnn) ∨
    ∃ k : Fin 16, t.pc = s.stack[k] + 2 := by
  cases i with
  | cls | ldImm | addImm | ldReg | orReg | andReg | xorReg | addReg | subReg | shr | subnReg | shl | ldI | rnd | ldVxDT
  | ldDTVx | ldSTVx | addI | ldF => cases h; exact .inl ⟨2, by decide, rfl⟩
  | drw | ldB | stRegs | ldRegs =>
    obtain ⟨-, hgo⟩ := guardBlock_next h
    cases hgo
    exact .inl ⟨2, by decide, rfl⟩
  | seImm | sneImm | seReg | sneReg => cases h; exact .inl ⟨_, skipLength_le _, rfl⟩
  | skp => obtain ⟨_, rfl⟩ := execSkp_next h; exact .inl ⟨_, skipLength_le _, rfl⟩
  | sknp => obtain ⟨_, rfl⟩ := execSknp_next h; exact .inl ⟨_, skipLength_le _, rfl⟩
  | ldVxK =>
    obtain rfl | ⟨_, rfl⟩ := execLdVxK_next h
    · exact .inl ⟨0, by decide, by simp⟩
    · exact .inl ⟨2, by decide, rfl⟩
  | jp nnn => cases h; exact .inr (.inl ⟨nnn, .inl rfl⟩)
  | jpV0 nnn => cases h; exact .inr (.inl ⟨nnn, .inr rfl⟩)
  | call nnn => obtain ⟨_, rfl⟩ := execCall_next h; exact .inr (.inl ⟨nnn, .inl rfl⟩)
  | ret => obtain ⟨hs, rfl⟩ := execRet_next h; exact .inr (.inr ⟨⟨s.sp.val - 1, by omega⟩, rfl⟩)

/-- A literal address is at most 0xFFF (R61). -/
theorem addrOperand_toNat_le (nnn : Addr) : (addrOperand nnn).toNat ≤ 0xFFF := by
  unfold addrOperand
  bv_omega

/-- The target of `Bnnn` does not wrap (R107). -/
theorem jumpOffset_toNat_le (s : State) (nnn : Addr) : (jumpOffset s nnn).toNat ≤ 0x10FE := by
  unfold jumpOffset addrOperand
  bv_omega

/-- No `pc` sum wraps: an instruction fetched inside the memory, with every stack entry at most 0xFFE, leaves `pc` at
most 0x10FE (R14). -/
theorem exec_pc_le {i : Instr} {s t : State} (hp : s.pc.toNat ≤ 0xFFE) (hst : ∀ k : Fin 16, s.stack[k].toNat ≤ 0xFFE)
    (h : exec i s = .next t) : t.pc.toNat ≤ 0x10FE := by
  obtain ⟨d, hd, ht⟩ | ⟨nnn, ht | ht⟩ | ⟨k, ht⟩ := exec_pc_cases h
  · rw [ht]; bv_omega
  · rw [ht]; exact (addrOperand_toNat_le nnn).trans (by decide)
  · rw [ht]; exact jumpOffset_toNat_le s nnn
  · have hk := hst k
    rw [ht]
    bv_omega

/-! ### Memory and the stack (R16, R15) -/

/-- A store inside the memory keeps it canonical, and no other instruction writes it (log 18). -/
theorem Writes.mem_wf {i : Instr} {s t : State} (w : Writes s i t) (h : s.mem.wf = true) : t.mem.wf = true := by
  cases w with
  | digits _ _ hb | block _ _ _ hb => exact s.mem.wf_writeBlock _ _ hb h
  | registers | index | push | pop | screen | delay | tone | random => exact h

/-- The only word ever pushed is the call's own address, from which it was fetched (R100, R102). -/
theorem Writes.stack_le {i : Instr} {s t : State} (w : Writes s i t) (hp : s.pc.toNat ≤ 0xFFE)
    (h : ∀ k : Fin 16, s.stack[k].toNat ≤ 0xFFE) (k : Fin 16) : t.stack[k].toNat ≤ 0xFFE := by
  cases w with
  | push =>
    simp only [Fin.getElem_fin, Vector.getElem_set]
    split
    · exact hp
    · exact h k
  | registers | index | digits | block | pop | screen | delay | tone | random => exact h k

/-! ### The cycle -/

/-- Settles O51: a fetch succeeds only with `pc` at most 0xFFE; from there each part of the invariant is kept by the
instruction, and the tick touches none of them. -/
theorem cycleKeepsTheInvariant : Obligations.CycleKeepsTheInvariant := by
  unfold Obligations.CycleKeepsTheInvariant
  rintro s t ⟨hm, -, hst⟩ h
  obtain ⟨i, u, hi, hu, rfl⟩ := step_next h
  have hp : s.pc.toNat ≤ 0xFFE := by
    have hf := (State.fetchInstr_ok hi).1
    omega
  have w := exec_writes hu
  have hinv : u.Inv := ⟨w.mem_wf hm, exec_pc_le hp hst hu, w.stack_le hp hst⟩
  exact hinv

/-! ### Reset and the host operations -/

/-- The state after `Initialize` meets the invariant (R22). -/
theorem State.initial_inv (font : Vector Byte 80) (r : Byte) (d : Nat) : (State.initial font r d).Inv := by
  refine ⟨State.initial_mem_wf font r d, ?_, fun k => ?_⟩
  · rw [State.initial_pc]; decide
  · simp

/-- Settles O50: `State.reset` is one such state. -/
theorem resetMeetsTheInvariant : Obligations.ResetMeetsTheInvariant := by
  unfold Obligations.ResetMeetsTheInvariant
  exact ⟨State.initial_inv _ _ _, State.initial_inv⟩

/-- `Load` leaves a state that meets the invariant: a program that fits is stored inside the memory, and another is not
stored (R176). -/
theorem load_inv (bytes : List Byte) (s : State) : (load bytes s).1.Inv := by
  have hr : (resetMachine s).Inv := State.initial_inv _ _ _
  unfold load
  split
  · rename_i hfit
    have hlen : Config.progBase + bytes.length ≤ 4096 := by
      have h : bytes.length ≤ 3584 := of_decide_eq_true hfit
      simp only [Config.progBase]
      omega
    obtain ⟨hm, hp, hst⟩ := hr
    exact ⟨Memory.wf_writeBlock _ _ _ hlen hm, hp, hst⟩
  · exact hr

/-- A cycle that returns `Ok` leaves what its step, with the byte supplied, answered (R177, R179). -/
theorem runCycle_ok {r : Byte} {s t : State} (h : runCycle r s = (t, .ok)) : step { s with rnd := r } = .next t := by
  unfold runCycle at h
  split at h
  · rename_i u hu
    cases h
    exact hu
  · cases h
  · cases h

/-- Settles O53: by induction on the run. The keys, the two flags and the random byte are no part of the invariant. -/
theorem reachableStatesMeetTheInvariant : Obligations.ReachableStatesMeetTheInvariant := by
  unfold Obligations.ReachableStatesMeetTheInvariant
  intro s hr
  induction hr with
  | start font rnd drawn => exact State.initial_inv font rnd drawn
  | cycle s t rnd _ hc ih => exact cycleKeepsTheInvariant { s with rnd := rnd } t ih (runCycle_ok hc)
  | load s bytes _ _ => exact load_inv bytes s
  | setKeys _ _ _ ih | clearRedraw _ _ ih | clearSound _ _ ih => exact ih

end Sys2Proof.Machine
end

section
/-!
PROOF. The table of reset values (10_state.md R22).
-/
namespace Sys2Proof.Machine

/-- With no cell listed, the font's addresses read as the font (R22). -/
theorem Memory.read_font (font : Vector Byte 80) (a : Fin 80) :
    ({ font := font, cells := [] } : Memory).read a.val = font[a] := by
  simp [Memory.read, Memory.findCell, Memory.unlisted]

/-- With no cell listed, every address from 80 up reads as zero (R22). -/
theorem Memory.read_above_font (font : Vector Byte 80) {a : Nat} (h : 80 ≤ a) :
    ({ font := font, cells := [] } : Memory).read a = 0 := by
  simp [Memory.read, Memory.findCell, Memory.unlisted, Nat.not_lt.mpr h]

/-- Settles O54: memory by the two lemmas above, every other element by the table of `State.initial`. -/
theorem initializeGivesTheResetTable : Obligations.InitializeGivesTheResetTable := by
  unfold Obligations.InitializeGivesTheResetTable
  refine ⟨fun s t ht => ?_, rfl⟩
  subst ht
  refine ⟨Memory.read_font _, fun a h80 _ => Memory.read_above_font _ h80, ?_⟩
  simp [resetMachine]

end Sys2Proof.Machine
end

section
/-!
PROOF. Memory over an instruction and a fetch (20_memory.md): which instructions store (R40, R47), what the next fetch reads
after a store (R43, R51), and what it reads once a word stands in its place (R43, R81).
-/
namespace Sys2Proof.Machine

/-! ### Only `Fx33` and `Fx55` store (R40, R47) -/

/-- An instruction other than the two stores leaves memory as it was: `mem`'s entry in the writer column of R10. -/
theorem exec_mem_eq {i : Instr} {s t : State} (hB : ∀ x, i ≠ .ldB x) (hR : ∀ x, i ≠ .stRegs x)
    (h : exec i s = .next t) : t.mem = s.mem := by
  by_contra hm
  obtain ⟨hmem, -⟩ := onlyListedInstructionsWriteEachElement i s t h
  obtain ⟨x, hx | hx⟩ := hmem hm
  · exact hB x hx
  · exact hR x hx

/-- Settles O19: equal memories read the same at every address. -/
theorem nonStoringInstructionsKeepEveryByte : Obligations.NonStoringInstructionsKeepEveryByte := by
  unfold Obligations.NonStoringInstructionsKeepEveryByte
  intro i s t hB hR h a
  rw [exec_mem_eq hB hR h]

/-! ### Reads after a store, inside the block and outside it (R44, R46, R49) -/

/-- Address `a + j` holds byte `j` of a block stored from `a` up. -/
theorem Memory.read_writeBlock_of_mem {m : Memory} {a k : Nat} {bs : List Byte} (hw : m.wf = true)
    (ha : a + bs.length ≤ 4096) (j : Nat) (hj : j < bs.length) (hk : a + j = k) :
    (m.writeBlock a bs).read k = bs[j] := by
  subst hk
  rw [m.read_writeBlock a _ bs ha hw, dif_pos ⟨by omega, by omega⟩]
  simp only [Nat.add_sub_cancel_left]

/-- An address below the block, or past its end, is not written. -/
theorem Memory.read_writeBlock_of_not_mem {m : Memory} {a k : Nat} {bs : List Byte} (hw : m.wf = true)
    (ha : a + bs.length ≤ 4096) (hk : k < a ∨ a + bs.length ≤ k) : (m.writeBlock a bs).read k = m.read k := by
  rw [m.read_writeBlock a k bs ha hw, dif_neg (by omega)]

/-- `Fx33` with its three addresses inside the memory (R143). -/
theorem execLdB_of_le (s : State) (x : RegIdx) (h : s.base + 2 ≤ 4095) :
    exec (.ldB x) s =
      .next { s with mem := s.mem.writeBlock s.base (decimalDigits (s.getV x)), pc := s.pc + 2 } :=
  guardBlock_of_le (.inr (by omega)) _

/-- `Fx55` with its block inside the memory (R144). -/
theorem execStRegs_of_le (s : State) (x : RegIdx) (h : s.base + x.val ≤ 4095) :
    exec (.stRegs x) s = .next { s with
      mem := s.mem.writeBlock s.base (s.regBlock x), I := s.pastBlock x, pc := s.pc + 2 } :=
  guardBlock_of_le (.inr (by unfold blockLen; omega)) _

/-- The three digits as numbers: hundreds, tens and ones (R143). -/
theorem decimalDigits_getElem_toNat (v : Byte) :
    ((decimalDigits v)[0]).toNat = v.toNat / 100 ∧ ((decimalDigits v)[1]).toNat = v.toNat / 10 % 10 ∧
      ((decimalDigits v)[2]).toNat = v.toNat % 10 := by
  have := v.isLt
  simp only [decimalDigits, List.getElem_cons_zero, List.getElem_cons_succ, BitVec.toNat_ofNat]
  omega

/-- A stored register block reads back as the registers (R144). -/
theorem State.read_storedBlock (s : State) {x k : RegIdx} {a : Nat} (hw : s.mem.wf = true)
    (hb : s.base + x.val ≤ 4095) (hk : k ≤ x) (ha : s.base + k.val = a) :
    (s.mem.writeBlock s.base (s.regBlock x)).read a = s.V[k] := by
  have hlen := s.regBlock_length x
  have hk' : k.val < (s.regBlock x).length := hlen ▸ Nat.lt_succ_of_le hk
  rw [Memory.read_writeBlock_of_mem hw (by omega) k.val hk' ha]
  exact s.regBlock_getElem x k.val hk'

/-- Storing a register block keeps every other byte (R144). -/
theorem State.read_storedBlock_outside (s : State) {x : RegIdx} {a : Nat} (hw : s.mem.wf = true)
    (hb : s.base + x.val ≤ 4095) (ha : a < s.base ∨ s.base + x.val < a) :
    (s.mem.writeBlock s.base (s.regBlock x)).read a = s.mem.read a := by
  have hlen := s.regBlock_length x
  exact Memory.read_writeBlock_of_not_mem hw (by omega) (by omega)

/-- Stored digits read back as hundreds, tens and ones (R143). -/
theorem State.read_storedDigits (s : State) (x : RegIdx) (hw : s.mem.wf = true) (hb : s.base + 2 ≤ 4095) :
    let m := s.mem.writeBlock s.base (decimalDigits (s.getV x))
    (m.read s.base).toNat = (s.getV x).toNat / 100 ∧ (m.read (s.base + 1)).toNat = (s.getV x).toNat / 10 % 10 ∧
      (m.read (s.base + 2)).toNat = (s.getV x).toNat % 10 := by
  intro m
  have hread (j : Nat) (hj : j < 3) : (m.read (s.base + j)).toNat = ((decimalDigits (s.getV x))[j]).toNat :=
    congrArg BitVec.toNat
      (Memory.read_writeBlock_of_mem (bs := decimalDigits (s.getV x)) hw (Nat.succ_le_succ hb) j hj rfl)
  obtain ⟨hundreds, tens, ones⟩ := decimalDigits_getElem_toNat (s.getV x)
  exact ⟨(hread 0 (by decide)).trans hundreds, (hread 1 (by decide)).trans tens, (hread 2 (by decide)).trans ones⟩

/-- Storing digits keeps every other byte (R143). -/
theorem State.read_storedDigits_outside (s : State) (x : RegIdx) {a : Nat} (hw : s.mem.wf = true)
    (hb : s.base + 2 ≤ 4095) (ha : a < s.base ∨ s.base + 2 < a) :
    (s.mem.writeBlock s.base (decimalDigits (s.getV x))).read a = s.mem.read a := by
  have hlen := decimalDigits_length (s.getV x)
  exact Memory.read_writeBlock_of_not_mem hw (by omega) (by omega)

/-! ### The fetch after a store (R43, R51) -/

/-- After an instruction that moves `pc` on by 2, a fetch inside the memory reads the two bytes behind the instruction. -/
theorem State.fetch_of_pc_add_two {s t : State} (ht : t.pc = s.pc + 2) (hp : s.pc.toNat + 3 ≤ 4095) :
    t.fetch = .ok (t.mem.read (s.pc.toNat + 2) ++ t.mem.read (s.pc.toNat + 3)) := by
  have hpc : t.pc.toNat = s.pc.toNat + 2 := by rw [ht]; bv_omega
  rw [t.fetch_of_le (by omega), hpc]

/-- Settles O41: both bytes of the fetch lie behind the old `pc`, and the reads above say what a store left there. -/
theorem storeIsSeenByTheNextFetch : Obligations.StoreIsSeenByTheNextFetch := by
  unfold Obligations.StoreIsSeenByTheNextFetch
  intro s x hw hp
  refine ⟨fun hb => ?_, fun hb => ?_⟩
  · exact ⟨_, _, _, execStRegs_of_le s x hb, State.fetch_of_pc_add_two rfl hp,
      fun k hk => ⟨s.read_storedBlock hw hb hk, s.read_storedBlock hw hb hk⟩,
      s.read_storedBlock_outside hw hb, s.read_storedBlock_outside hw hb⟩
  · obtain ⟨hundreds, tens, ones⟩ := s.read_storedDigits x hw hb
    refine ⟨_, _, _, execLdB_of_le s x hb, State.fetch_of_pc_add_two rfl hp, fun h => ?_, fun h => ?_, fun h => ?_,
      fun h => ?_, s.read_storedDigits_outside x hw hb, s.read_storedDigits_outside x hw hb⟩
    · rw [← h, show s.pc.toNat + 3 = s.base + 1 by omega]
      exact ⟨hundreds, tens⟩
    · rw [← h, show s.pc.toNat + 3 = s.base + 2 by omega]
      exact ⟨tens, ones⟩
    · rw [← h]
      exact ones
    · rw [← h]
      exact hundreds

/-! ### The cycle of a fetched word (R80, R82) -/

section
variable {w : Word} {e : DecodeError}

theorem decodeFamily0_error (h : decodeFamily0 w = .error e) : e = .unknownInstruction w := by
  unfold decodeFamily0 at h
  split_ifs at h
  cases h; rfl

theorem decodeFamily8_error (h : decodeFamily8 w = .error e) : e = .unknownInstruction w := by
  unfold decodeFamily8 at h
  split at h <;> cases h
  rfl

theorem decodeFamilyE_error (h : decodeFamilyE w = .error e) : e = .unknownInstruction w := by
  unfold decodeFamilyE at h
  split_ifs at h
  cases h; rfl

theorem decodeFamilyF_error (h : decodeFamilyF w = .error e) : e = .unknownInstruction w := by
  unfold decodeFamilyF at h
  split_ifs at h
  cases h; rfl

/-- The decoder's one error names the word itself (R65): each family that can fail says so. -/
theorem decode_error (h : decode w = .error e) : e = .unknownInstruction w := by
  unfold decode at h
  split at h
  case h_1 => exact decodeFamily0_error h
  case h_9 => exact decodeFamily8_error h
  case h_15 => exact decodeFamilyE_error h
  case h_16 => exact decodeFamilyF_error h
  case h_6 | h_10 =>
    split_ifs at h
    cases h; rfl
  case h_17 => cases h; rfl
  all_goals cases h

end

/-- A fetched word that decodes is executed, and that ends the cycle. -/
theorem step_of_decode {s : State} {w : Word} {i : Instr} (hf : s.fetch = .ok w) (hd : decode w = .ok i) :
    step s = endCycle (exec i s) := by
  simp only [step, State.fetchInstr, hf, hd]

/-- A fetched word that does not decode is fatal, and the error carries it (R191). -/
theorem step_of_unknown {s : State} {w : Word} (hf : s.fetch = .ok w) (hd : ∀ i, decode w ≠ .ok i) :
    step s = .fault (.unknownInstruction w) := by
  cases he : decode w with
  | ok i => exact absurd he (hd i)
  | error e =>
    obtain rfl := decode_error he
    simp only [step, State.fetchInstr, hf, he, fatal]

/-! ### A word placed for the next fetch (log 21) -/

/-- The bits of a whole word place that word. -/
theorem State.withFetchWord_toNat (s : State) (w : Word) : s.withFetchWord 16 w.toNat = s.placeWord w := by
  rw [State.withFetchWord, Nat.mod_eq_of_lt w.isLt, BitVec.ofNat_toNat, BitVec.setWidth_eq]

/-- Where a fetch at `pc` can succeed, that is the place. -/
theorem State.fetchPlace_of_le (s : State) (h : s.pc.toNat + 2 ≤ 4096) : s.fetchPlace = s.pc := if_pos h

/-- A word fits at the place, whatever `pc` is. -/
theorem State.fetchPlace_le (s : State) : s.fetchPlace.toNat + 2 ≤ 4096 := by
  unfold State.fetchPlace
  split
  · assumption
  · decide

/-- The placed word is fetched: its high byte stands at the place, its low byte behind it (R43). -/
theorem State.fetch_placeWord {s : State} (hw : s.mem.wf = true) (w : Word) : (s.placeWord w).fetch = .ok w := by
  have hle := s.fetchPlace_le
  have hhi : (s.placeWord w).mem.read s.fetchPlace.toNat = hiByte w :=
    Memory.read_writeBlock_of_mem hw hle 0 (by simp) rfl
  have hlo : (s.placeWord w).mem.read (s.fetchPlace.toNat + 1) = loByte w :=
    Memory.read_writeBlock_of_mem hw hle 1 (by simp) rfl
  calc (s.placeWord w).fetch
    _ = .ok ((s.placeWord w).mem.read s.fetchPlace.toNat ++ (s.placeWord w).mem.read (s.fetchPlace.toNat + 1)) :=
      State.fetch_of_le _ hle
    _ = .ok (wordOfBytes (hiByte w) (loByte w)) := by rw [hhi, hlo, wordOfBytes]
    _ = .ok w := by rw [wordOfBytes_hi_lo]

/-- Settles O56: the placed word is the one fetched, and the cycle follows from the fetched word alone. -/
theorem placedWordIsTheNextFetched : Obligations.PlacedWordIsTheNextFetched := by
  unfold Obligations.PlacedWordIsTheNextFetched
  intro s w hw
  rw [s.withFetchWord_toNat w]
  have hf := State.fetch_placeWord hw w
  refine ⟨hf, fun i hd => step_of_decode hf hd, step_of_unknown hf, fun hp => ?_⟩
  rw [State.placeWord, s.fetchPlace_of_le (by omega)]

end Sys2Proof.Machine
end

section
/-!
PROOF. The encoding (30_encoding.md): decoding and encoding undo each other, the decoder agrees with the opcode table, and
the unknown words are the regions of R65.
-/
namespace Sys2Proof

/-! ### Decoding an encoding (R62, R64) -/

/-- The round trip, by the format of the instruction: the fields of the word are the operands, and the fixed fields lead
the decoder to the instruction's own arm. -/
theorem decode_encode (i : Instr) : decode (encode i) = .ok i := by
  cases i with
  | cls | ret => rfl
  | jp | call | ldI | jpV0 => simp [encode, decode]
  | seImm | sneImm | ldImm | addImm | rnd => simp [encode, decode]
  | seReg | sneReg | drw => simp [encode, decode]
  | ldReg | orReg | andReg | xorReg | addReg | subReg | shr | subnReg | shl => simp [encode, decode, decodeFamily8]
  | skp | sknp => simp [encode, decode, decodeFamilyE]
  | ldVxDT | ldVxK | ldDTVx | ldSTVx | addI | ldF | ldB | stRegs | ldRegs => simp [encode, decode, decodeFamilyF]

/-- Settles O1: the round trip, format by format. -/
theorem decodeOfEncodeIsInstr : Obligations.DecodeOfEncodeIsInstr := by
  unfold Obligations.DecodeOfEncodeIsInstr
  exact decode_encode

/-- A word written as an encoding decodes to what it encodes. -/
theorem decode_of_encode_eq {i : Instr} {w : Word} (h : encode i = w) : decode w = .ok i := h ▸ decode_encode i

/-- Two instructions never share a word. -/
theorem encode_injective {i j : Instr} (h : encode i = encode j) : i = j :=
  Except.ok.inj ((decode_of_encode_eq h).symm.trans (decode_encode j))

/-! ### Encoding what a word decodes to -/

section
variable {w : Word} {h : Nibble}

theorem formatA_of_opField (hop : opField w = h) : formatA h (nnnField w) = w :=
  hop ▸ formatA_fields w

/-- Format `XI`, and format `X`, whose low byte is fixed (R62). -/
theorem formatXI_of_fields {nn : Byte} (hop : opField w = h) (hnn : nnField w = nn) : formatXI h (xField w) nn = w :=
  hop ▸ hnn ▸ formatXI_fields w

/-- Format `XYN`, and format `XY`, whose low nibble is fixed (R62). -/
theorem formatXYN_of_fields {n : Nibble} (hop : opField w = h) (hn : nField w = n) :
    formatXYN h (xField w) (yField w) n = w :=
  hop ▸ hn ▸ formatXYN_fields w

variable {i : Instr}

theorem encode_of_decodeFamily0 (hd : decodeFamily0 w = .ok i) : encode i = w := by
  unfold decodeFamily0 at hd
  split_ifs at hd with hw hw <;> cases hd <;> exact hw.symm

theorem encode_of_decodeFamily8 (hop : opField w = 0x8) (hd : decodeFamily8 w = .ok i) : encode i = w := by
  unfold decodeFamily8 at hd
  split at hd <;> cases hd
  all_goals exact formatXYN_of_fields hop (BitVec.eq_of_toNat_eq ‹_›)

theorem encode_of_decodeFamilyE (hop : opField w = 0xE) (hd : decodeFamilyE w = .ok i) : encode i = w := by
  unfold decodeFamilyE at hd
  split_ifs at hd with hnn hnn <;> cases hd <;> exact formatXI_of_fields hop hnn

theorem encode_of_decodeFamilyF (hop : opField w = 0xF) (hd : decodeFamilyF w = .ok i) : encode i = w := by
  unfold decodeFamilyF at hd
  split_ifs at hd <;> cases hd <;> exact formatXI_of_fields hop ‹_›

/-- The converse round trip, by the arms of the decoder: what an arm fixed of the word, the encoder writes back, and the
operands are the other fields. -/
theorem encode_of_decode (hd : decode w = .ok i) : encode i = w := by
  unfold decode at hd
  split at hd
  case h_1 => exact encode_of_decodeFamily0 hd
  case h_9 hop => exact encode_of_decodeFamily8 (BitVec.eq_of_toNat_eq hop) hd
  case h_15 hop => exact encode_of_decodeFamilyE (BitVec.eq_of_toNat_eq hop) hd
  case h_16 hop => exact encode_of_decodeFamilyF (BitVec.eq_of_toNat_eq hop) hd
  case h_6 hop | h_10 hop =>
    split_ifs at hd with hn
    cases hd
    exact formatXYN_of_fields (BitVec.eq_of_toNat_eq hop) hn
  case h_14 hop => cases hd; exact formatXYN_of_fields (BitVec.eq_of_toNat_eq hop) rfl
  case h_2 hop | h_3 hop | h_11 hop | h_12 hop => cases hd; exact formatA_of_opField (BitVec.eq_of_toNat_eq hop)
  case h_4 hop | h_5 hop | h_7 hop | h_8 hop | h_13 hop =>
    cases hd
    exact formatXI_of_fields (BitVec.eq_of_toNat_eq hop) rfl
  case h_17 => cases hd

end

/-- Settles O2: by the arms of the decoder. -/
theorem encodeOfDecodeIsWord : Obligations.EncodeOfDecodeIsWord := by
  unfold Obligations.EncodeOfDecodeIsWord
  intro w i hd
  exact encode_of_decode hd

/-! ### The opcode table (R63) -/

section
variable {w : Word} {h : Nibble}

/-- A mask that covers a field fixes it. -/
theorem extractLsb'_of_match {m b : Word} {start len : Nat} (hm : m.extractLsb' start len = BitVec.allOnes len)
    (hw : w &&& m = b) : w.extractLsb' start len = b.extractLsb' start len := by
  rw [← hw, BitVec.extractLsb'_and, hm, BitVec.and_allOnes]

/-! A word that a row of each format selects is that format filled with the word's own fields. -/

theorem formatA_of_mask (hw : w &&& 0xF000 = formatA h 0) : formatA h (nnnField w) = w :=
  formatA_of_opField ((extractLsb'_of_match rfl hw).trans (opField_formatA h 0))

theorem formatXI_of_mask (hw : w &&& 0xF000 = formatXI h 0 0) : formatXI h (xField w) (nnField w) = w :=
  formatXI_of_fields ((extractLsb'_of_match rfl hw).trans (opField_formatXI h 0 0)) rfl

theorem formatX_of_mask {nn : Byte} (hw : w &&& 0xF0FF = formatXI h 0 nn) : formatXI h (xField w) nn = w :=
  formatXI_of_fields ((extractLsb'_of_match rfl hw).trans (opField_formatXI h 0 nn))
    ((extractLsb'_of_match rfl hw).trans (nnField_formatXI h 0 nn))

theorem formatXYN_of_mask (hw : w &&& 0xF000 = formatXYN h 0 0 0) : formatXYN h (xField w) (yField w) (nField w) = w :=
  formatXYN_of_fields ((extractLsb'_of_match rfl hw).trans (opField_formatXYN h 0 0 0)) rfl

theorem formatXY_of_mask {n : Nibble} (hw : w &&& 0xF00F = formatXYN h 0 0 n) : formatXYN h (xField w) (yField w) n = w :=
  formatXYN_of_fields ((extractLsb'_of_match rfl hw).trans (opField_formatXYN h 0 0 n))
    ((extractLsb'_of_match rfl hw).trans (nField_formatXYN h 0 0 n))

end

/-- A word that a row selects is the encoding of an instruction of that row, read off the word's fields (R62, R63). -/
theorem exists_encode_of_match (w : Word) :
    ∀ r ∈ opcodeTable, w &&& r.mask = r.bits → ∃ i, encode i = w ∧ i.rowNum = r.num := by
  simp only [opcodeTable, List.forall_mem_cons]
  exact ⟨
    fun hw => ⟨.cls, hw.symm.trans BitVec.and_allOnes, rfl⟩,
    fun hw => ⟨.ret, hw.symm.trans BitVec.and_allOnes, rfl⟩,
    fun hw => ⟨.jp (nnnField w), formatA_of_mask hw, rfl⟩,
    fun hw => ⟨.call (nnnField w), formatA_of_mask hw, rfl⟩,
    fun hw => ⟨.seImm (xField w) (nnField w), formatXI_of_mask hw, rfl⟩,
    fun hw => ⟨.sneImm (xField w) (nnField w), formatXI_of_mask hw, rfl⟩,
    fun hw => ⟨.seReg (xField w) (yField w), formatXY_of_mask hw, rfl⟩,
    fun hw => ⟨.ldImm (xField w) (nnField w), formatXI_of_mask hw, rfl⟩,
    fun hw => ⟨.addImm (xField w) (nnField w), formatXI_of_mask hw, rfl⟩,
    fun hw => ⟨.ldReg (xField w) (yField w), formatXY_of_mask hw, rfl⟩,
    fun hw => ⟨.orReg (xField w) (yField w), formatXY_of_mask hw, rfl⟩,
    fun hw => ⟨.andReg (xField w) (yField w), formatXY_of_mask hw, rfl⟩,
    fun hw => ⟨.xorReg (xField w) (yField w), formatXY_of_mask hw, rfl⟩,
    fun hw => ⟨.addReg (xField w) (yField w), formatXY_of_mask hw, rfl⟩,
    fun hw => ⟨.subReg (xField w) (yField w), formatXY_of_mask hw, rfl⟩,
    fun hw => ⟨.shr (xField w) (yField w), formatXY_of_mask hw, rfl⟩,
    fun hw => ⟨.subnReg (xField w) (yField w), formatXY_of_mask hw, rfl⟩,
    fun hw => ⟨.shl (xField w) (yField w), formatXY_of_mask hw, rfl⟩,
    fun hw => ⟨.sneReg (xField w) (yField w), formatXY_of_mask hw, rfl⟩,
    fun hw => ⟨.ldI (nnnField w), formatA_of_mask hw, rfl⟩,
    fun hw => ⟨.jpV0 (nnnField w), formatA_of_mask hw, rfl⟩,
    fun hw => ⟨.rnd (xField w) (nnField w), formatXI_of_mask hw, rfl⟩,
    fun hw => ⟨.drw (xField w) (yField w) (nField w), formatXYN_of_mask hw, rfl⟩,
    fun hw => ⟨.skp (xField w), formatX_of_mask hw, rfl⟩,
    fun hw => ⟨.sknp (xField w), formatX_of_mask hw, rfl⟩,
    fun hw => ⟨.ldVxDT (xField w), formatX_of_mask hw, rfl⟩,
    fun hw => ⟨.ldVxK (xField w), formatX_of_mask hw, rfl⟩,
    fun hw => ⟨.ldDTVx (xField w), formatX_of_mask hw, rfl⟩,
    fun hw => ⟨.ldSTVx (xField w), formatX_of_mask hw, rfl⟩,
    fun hw => ⟨.addI (xField w), formatX_of_mask hw, rfl⟩,
    fun hw => ⟨.ldF (xField w), formatX_of_mask hw, rfl⟩,
    fun hw => ⟨.ldB (xField w), formatX_of_mask hw, rfl⟩,
    fun hw => ⟨.stRegs (xField w), formatX_of_mask hw, rfl⟩,
    fun hw => ⟨.ldRegs (xField w), formatX_of_mask hw, rfl⟩,
    List.forall_mem_nil _⟩

open Laws.EncodesRow in
/-- The row of an instruction selects its encoding (R63). -/
theorem encodesRow (i : Instr) : Statement i := by
  cases i
  exacts [cls, ret, jp _, call _, seImm _ _, sneImm _ _, seReg _ _, ldImm _ _, addImm _ _, ldReg _ _, orReg _ _,
    andReg _ _, xorReg _ _, addReg _ _, subReg _ _, shr _ _, subnReg _ _, shl _ _, sneReg _ _, ldI _, jpV0 _, rnd _ _,
    drw _ _ _, skp _, sknp _, ldVxDT _, ldVxK _, ldDTVx _, ldSTVx _, addI _, ldF _, ldB _, stRegs _, ldRegs _]

/-- The numbers of the rows differ (R63). -/
theorem opcodeTable_num_injective : ∀ r ∈ opcodeTable, ∀ r' ∈ opcodeTable, r.num = r'.num → r = r' := by
  decide

/-- Settles O3: the row of the decoded instruction selects the word, by the round trip; and a word that two rows select is
the encoding of an instruction of each, which is one instruction. -/
theorem decodeAgreesWithOpcodeTable : Obligations.DecodeAgreesWithOpcodeTable := by
  unfold Obligations.DecodeAgreesWithOpcodeTable
  refine ⟨fun w r hr => ⟨fun hw => ?_, ?_⟩, fun w r hr r' hr' hw hw' => ?_⟩
  · obtain ⟨i, hi, hnum⟩ := exists_encode_of_match w r hr hw
    exact ⟨i, decode_of_encode_eq hi, hnum⟩
  · rintro ⟨i, hd, hnum⟩
    obtain ⟨r', hr', hnum', hw⟩ := encodesRow i
    obtain rfl := opcodeTable_num_injective r' hr' r hr (hnum'.trans hnum)
    rwa [encode_of_decode hd] at hw
  · obtain ⟨i, hi, hnum⟩ := exists_encode_of_match w r hr hw
    obtain ⟨j, hj, hnum'⟩ := exists_encode_of_match w r' hr' hw'
    obtain rfl := encode_injective (hi.trans hj.symm)
    exact opcodeTable_num_injective r hr r' hr' (hnum.symm.trans hnum')

/-! ### The unknown words (R65) -/

section
variable {w : Word}

theorem nField_eq_iff {n : Nibble} : nField w = n ↔ w.toNat % 0x10 = n.toNat := by
  rw [← BitVec.toNat_inj, nField_toNat]

theorem nnField_eq_iff {nn : Byte} : nnField w = nn ↔ w.toNat % 0x100 = nn.toNat := by
  rw [← BitVec.toNat_inj, nnField_toNat]

theorem decodeFamily0_eq_unknown :
    decodeFamily0 w = .error (.unknownInstruction w) ↔ w.toNat ≠ 0x00E0 ∧ w.toNat ≠ 0x00EE := by
  simp [decodeFamily0, ← BitVec.toNat_inj, ite_eq_iff]

theorem decodeFamily8_eq_unknown : decodeFamily8 w = .error (.unknownInstruction w) ↔
    w.toNat % 0x10 ∈ [0x8, 0x9, 0xA, 0xB, 0xC, 0xD, 0xF] := by
  unfold decodeFamily8
  rw [nField_toNat]
  split
  case h_10 =>
    have hlt : w.toNat % 16 < 16 := Nat.mod_lt _ (by decide)
    simp only [imp_false, List.mem_cons, List.not_mem_nil, true_iff] at *
    omega
  all_goals simp [*]

theorem decodeFamilyE_eq_unknown :
    decodeFamilyE w = .error (.unknownInstruction w) ↔ w.toNat % 0x100 ∉ [0x9E, 0xA1] := by
  simp [decodeFamilyE, nnField_eq_iff, ite_eq_iff]

theorem decodeFamilyF_eq_unknown : decodeFamilyF w = .error (.unknownInstruction w) ↔
    w.toNat % 0x100 ∉ [0x07, 0x0A, 0x15, 0x18, 0x1E, 0x29, 0x33, 0x55, 0x65] := by
  simp [decodeFamilyF, nnField_eq_iff, ite_eq_iff]

end

/-- Settles O4: by the high nibble. Ten families have no unknown word; each of the other six gives its own region. -/
theorem unknownWordsAreTheListedRegions : Obligations.UnknownWordsAreTheListedRegions := by
  unfold Obligations.UnknownWordsAreTheListedRegions
  refine ⟨fun w e => Machine.decode_error, fun w => ?_⟩
  unfold decode
  rw [opField_toNat]
  split
  case h_1 hop => simp [hop, decodeFamily0_eq_unknown]
  case h_9 hop => simp [hop, decodeFamily8_eq_unknown]
  case h_15 hop => simp [hop, decodeFamilyE_eq_unknown]
  case h_16 hop => simp [hop, decodeFamilyF_eq_unknown]
  case h_6 hop | h_10 hop => simp [hop, nField_eq_iff]
  case h_17 =>
    have hlt := w.isLt
    simp only [imp_false] at *
    omega
  all_goals simp [*]

/-! ### Sample words (R63) -/

/-- Settles O5: each word is written as the encoding of its instruction, and `0x5121` lies in the region of family 5. -/
theorem sampleWordsDecodeAsWritten : Obligations.SampleWordsDecodeAsWritten := by
  unfold Obligations.SampleWordsDecodeAsWritten
  refine ⟨?_, ?_, ?_, ?_, ?_, ?_, ?_, ?_, ?_, ?_, ?_, ?_, ?_, ?_, ?_, ?_, ?_, ?_, ?_, ?_⟩
  case refine_20 => exact (unknownWordsAreTheListedRegions.2 0x5121).mpr (by decide)
  all_goals exact decode_of_encode_eq rfl

end Sys2Proof
end

section
/-!
PROOF. No instruction is refused (30_encoding.md R63, 40_cycle.md R80).
-/
namespace Sys2Proof.Machine

variable {r : Refusal}

/-- A bound refuses nothing (R42). -/
theorem guardBlock_ne_refused {base n : Nat} {go : Host.Outcome State Fault Refusal} (hgo : go ≠ .refused r) :
    guardBlock base n go ≠ .refused r := by
  by_cases hb : n = 0 ∨ base + n ≤ 4096
  · rwa [guardBlock_of_le hb]
  · rw [guardBlock_of_gt (by omega) (by omega)]
    exact nofun

/-- The test of a key number refuses nothing (R160). -/
theorem guardKey_ne_refused {s : State} {v : Byte} {go : Bool → Host.Outcome State Fault Refusal}
    (hgo : ∀ down, go down ≠ .refused r) : guardKey s v go ≠ .refused r := by
  by_cases hv : v.toNat < 16
  · rw [guardKey_of_lt s hv]
    exact hgo _
  · rw [guardKey_of_ge s (by omega)]
    exact nofun

/-- Every instruction has a meaning in every state. The cases are grouped by what the meaning tests: nothing, the bounds of
memory, a key number, the stack, the keys. -/
theorem exec_ne_refused (i : Instr) (s : State) : exec i s ≠ .refused r := by
  cases i with
  | cls | jp | seImm | sneImm | seReg | ldImm | addImm | ldReg | orReg | andReg | xorReg | addReg | subReg | shr | subnReg
  | shl | sneReg | ldI | jpV0 | rnd | ldVxDT | ldDTVx | ldSTVx | addI | ldF => exact nofun
  | drw | ldB | stRegs | ldRegs => exact guardBlock_ne_refused nofun
  | skp => exact guardKey_ne_refused (go := fun down => .next (s.skipIf down)) fun _ => nofun
  | sknp => exact guardKey_ne_refused (go := fun down => .next (s.skipIf (!down))) fun _ => nofun
  | ret =>
    by_cases hs : 0 < s.sp.val
    · rw [execRet_of_pos s hs]; exact nofun
    · rw [execRet_of_zero s (by omega)]; exact nofun
  | call nnn =>
    by_cases hs : s.sp.val < 16
    · rw [execCall_of_lt s nnn hs]; exact nofun
    · rw [execCall_of_full s nnn (by omega)]; exact nofun
  | ldVxK =>
    simp only [exec, execLdVxK]
    split <;> exact nofun

/-- Settles O13: by the groups of `exec_ne_refused`. -/
theorem execNeverRefuses : Obligations.ExecNeverRefuses := by
  unfold Obligations.ExecNeverRefuses
  intro i s r
  exact exec_ne_refused i s

end Sys2Proof.Machine
end

section
/-!
PROOF. The cycle (40_cycle.md R80 to R86): what it fetches and executes, what the instruction leaves in `pc`, the tick
that ends it, and the state that a fatal error leaves.
-/
namespace Sys2Proof.Machine

/-! ### The timer tick (R86) -/

/-- After the tick `sound` is raised exactly if it was already or `ST` was 1 (R86). -/
theorem State.timerTick_sound_eq_true_iff (u : State) :
    u.timerTick.sound = true ↔ u.sound = true ∨ u.ST.toNat = 1 := by
  have hone : u.ST = 1 ↔ u.ST.toNat = 1 := BitVec.toNat_eq
  rw [u.timerTick_sound, ← hone]
  split
  next h => exact iff_of_true rfl (.inr h)
  next h => exact (or_iff_left h).symm

/-- Settles O9: a step that goes on is an instruction's next state and then the tick. -/
theorem timersTickAtTheEndOfEveryCycle : Obligations.TimersTickAtTheEndOfEveryCycle := by
  unfold Obligations.TimersTickAtTheEndOfEveryCycle
  intro s t h
  obtain ⟨i, u, hi, hu, rfl⟩ := step_next h
  exact ⟨i, u, hi, hu, rfl, tick_toNat u.DT, tick_toNat u.ST, u.timerTick_sound_eq_true_iff⟩

/-! ### The program counter an instruction leaves (R83) -/

section
variable {i : Instr} {s t : State}

/-- A skip moves `pc` by 4 or by 2, whatever its condition (R83). -/
theorem State.skipIf_pc_cases (s : State) (c : Bool) :
    (s.skipIf c).pc = s.pc + 4 ∨ (s.skipIf c).pc = s.pc + 2 := by
  cases c
  · exact .inr rfl
  · exact .inl rfl

/-- A sequential instruction advances, four of them behind the test of their bounds (R83). -/
theorem exec_pc_of_sequential (hk : pcKind i = .sequential) (h : exec i s = .next t) : t.pc = s.pc + 2 := by
  cases i with
  | cls | ldImm | addImm | ldReg | orReg | andReg | xorReg | addReg | subReg | shr | subnReg | shl | ldI | rnd | ldVxDT
  | ldDTVx | ldSTVx | addI | ldF => cases h; rfl
  | drw | ldB | stRegs | ldRegs => obtain ⟨-, hgo⟩ := guardBlock_next h; cases hgo; rfl
  | _ => cases hk

/-- The six skips, the two on a key behind the test of its number (R83). -/
theorem exec_pc_of_skip (hk : pcKind i = .skip) (h : exec i s = .next t) : t.pc = s.pc + 4 ∨ t.pc = s.pc + 2 := by
  cases i with
  | seImm | sneImm | seReg | sneReg => cases h; exact s.skipIf_pc_cases _
  | skp => obtain ⟨_, rfl⟩ := execSkp_next h; exact s.skipIf_pc_cases _
  | sknp => obtain ⟨_, rfl⟩ := execSknp_next h; exact s.skipIf_pc_cases _
  | _ => cases hk

/-- `Fx0A` advances with a key and stays without one (R83, R163). -/
theorem execLdVxK_pc {x : RegIdx} (h : exec (.ldVxK x) s = .next t) : t.pc = s.pc + 2 ∨ t.pc = s.pc := by
  obtain rfl | ⟨_, rfl⟩ := execLdVxK_next h
  · exact .inr rfl
  · exact .inl rfl

end

/-- Settles O18: kind by kind. -/
theorem programCounterPolicy : Obligations.ProgramCounterPolicy := by
  unfold Obligations.ProgramCounterPolicy
  intro i s t h
  exact ⟨fun hk => exec_pc_of_sequential hk h, fun hk => exec_pc_of_skip hk h, fun x hx => execLdVxK_pc (hx ▸ h)⟩

/-! ### Fetch, decode, execute (R80 to R82) -/

/-- Settles O6: the two bytes are the fetched word; the end of the cycle ticks a next state and passes a fault on. -/
theorem stepRunsDecodedInstruction : Obligations.StepRunsDecodedInstruction := by
  unfold Obligations.StepRunsDecodedInstruction
  intro s i hp hd
  have hs : step s = endCycle (exec i s) := step_of_decode (s.fetch_of_le (by omega)) hd
  refine ⟨fun t ht => ?_, fun f hf => ?_⟩
  · rw [hs, ht, endCycle]
  · rw [hs, hf, endCycle]

/-- Two bytes, the first in the high half, as a number (R43). -/
theorem append_bytes_toNat (hi lo : Byte) : (hi ++ lo : Word).toNat = hi.toNat * 256 + lo.toNat := by
  rw [BitVec.toNat_append, ← Nat.shiftLeft_add_eq_or_of_lt lo.isLt, Nat.shiftLeft_eq]

/-- A fetch that raises ends the cycle with its fault (R80, R81). -/
theorem step_of_fetch_error {s : State} {f : Fault} (h : s.fetch = .error f) : step s = .fault f := by
  simp only [step, State.fetchInstr, h, fatal]

/-- The lowest address above 4095 that a fetch at `0xFFF` or above touches (R81, R194). -/
theorem max_memSize_toNat (pc : Word) :
    (BitVec.ofNat 16 (max pc.toNat 4096)).toNat = if 4095 < pc.toNat then pc.toNat else 4096 := by
  have := pc.isLt
  rw [BitVec.toNat_ofNat, Nat.mod_eq_of_lt (by omega)]
  split <;> omega

/-- Settles O7: by the two cases of fetch. -/
theorem fetchIsBigEndianAndBounded : Obligations.FetchIsBigEndianAndBounded := by
  unfold Obligations.FetchIsBigEndianAndBounded
  intro s
  refine ⟨fun hp => ?_, fun hp => ?_⟩
  · exact ⟨_, s.fetch_of_le (by omega), append_bytes_toNat _ _⟩
  · exact ⟨_, step_of_fetch_error (s.fetch_of_gt (by omega)), max_memSize_toNat s.pc⟩

/-! ### The state after a fatal cycle (R85, R200) -/

/-- A cycle that returns a fatal error keeps the state, and the error is its step's with the byte supplied (R177). -/
theorem runCycle_fatal {r : Byte} {s t : State} {f : Fault} (h : runCycle r s = (t, .fatal f)) :
    t = s ∧ step { s with rnd := r } = .fault f := by
  unfold runCycle at h
  split at h
  · cases h
  · rename_i g hg
    cases h
    exact ⟨rfl, hg⟩
  · cases h

/-- Settles O10: by `runCycle_fatal`. -/
theorem faultingCycleChangesNothing : Obligations.FaultingCycleChangesNothing := by
  unfold Obligations.FaultingCycleChangesNothing
  intro r s f h
  exact runCycle_fatal (Prod.ext rfl h)

end Sys2Proof.Machine
end

section
/-!
PROOF. Control transfer and skips (41_control_flow.md): what a return, a jump, a call and the four skips on registers leave,
and that a return undoes a call but for the entry it wrote.
-/
namespace Sys2Proof.Machine

/-! ### Targets (R101, R107) -/

/-- A literal address is its own number, zero-extended (R61). -/
theorem addrOperand_toNat (nnn : Addr) : (addrOperand nnn).toNat = nnn.toNat :=
  BitVec.toNat_setWidth_of_le (by decide)

/-- The target of `Bnnn` is the full sum: of a 12-bit and an 8-bit number, it stays below 65536 (R107). -/
theorem jumpOffset_toNat (s : State) (nnn : Addr) :
    (jumpOffset s nnn).toNat = nnn.toNat + s.V[(0 : RegIdx)].toNat := by
  have hV : ((s.getV 0).setWidth 16).toNat = s.V[(0 : RegIdx)].toNat := BitVec.toNat_setWidth_of_le (by decide)
  have hnnn := nnn.isLt
  have hV0 := s.V[(0 : RegIdx)].isLt
  rw [jumpOffset, BitVec.toNat_add_of_lt, addrOperand_toNat, hV]
  rw [addrOperand_toNat, hV]
  omega

/-- Settles O22: `pc` is the target, whose number the two lemmas above give. -/
theorem jumpsWriteTheirTarget : Obligations.JumpsWriteTheirTarget := by
  unfold Obligations.JumpsWriteTheirTarget
  intro s nnn
  exact ⟨⟨_, rfl, rfl, addrOperand_toNat nnn⟩, _, rfl, rfl, jumpOffset_toNat s nnn⟩

/-! ### Return and call (R100, R102) -/

/-- The word of a call, which its overflow reports (R63, R192). -/
theorem encode_call (nnn : Addr) : encode (.call nnn) = BitVec.ofNat 16 (0x2000 + nnn.toNat) := by
  have hw : (encode (.call nnn)).toNat = 0x2000 + nnn.toNat := formatA_toNat 0x2 nnn
  rw [← hw, BitVec.ofNat_toNat, BitVec.setWidth_eq]

/-- Settles O21: by the two cases of `00EE`; the entry below `sp` is entry `k`. -/
theorem retPopsTheTopEntryAndAddsTwo : Obligations.RetPopsTheTopEntryAndAddsTwo := by
  unfold Obligations.RetPopsTheTopEntryAndAddsTwo
  intro s
  refine ⟨fun k hk => ?_, execRet_of_zero s⟩
  have htop : s.sp.val - 1 = k.val := by omega
  refine ⟨_, execRet_of_pos s (by omega), rfl, htop, ?_⟩
  simp only [htop]
  exact BitVec.toNat_add _ 2

/-- Settles O23: by the two cases of `2nnn`; the slot written is entry `k`. -/
theorem callPushesItsOwnAddress : Obligations.CallPushesItsOwnAddress := by
  unfold Obligations.CallPushesItsOwnAddress
  intro s nnn
  refine ⟨fun k hk => ?_, fun hfull => ?_⟩
  · refine ⟨_, execCall_of_lt s nnn (by omega), rfl, ?_, fun j hj => ?_, congrArg (· + 1) hk, addrOperand_toNat nnn⟩
    · simp only [hk]
      exact Vector.getElem_set_self _
    · have hne : k.val ≠ j.val := fun h => hj (Fin.ext h.symm)
      simp only [hk]
      exact Vector.getElem_set_ne _ _ hne
  · rw [execCall_of_full s nnn hfull, encode_call]

/-- Settles O24: the return brings `sp` back to the slot the call wrote, which holds the call's `pc`. -/
theorem callThenRetResumesAfterTheCall : Obligations.CallThenRetResumesAfterTheCall := by
  unfold Obligations.CallThenRetResumesAfterTheCall
  intro s nnn hs
  refine ⟨_, _, execCall_of_lt s nnn hs, execRet_of_pos _ (Nat.succ_pos _), ?_, fun j => ⟨fun hj => ?_, fun hj => ?_⟩⟩
  · simp only [Nat.add_sub_cancel, Vector.getElem_set_self]
  · simp only [← hj]
    exact Vector.getElem_set_self _
  · exact Vector.getElem_set_ne hs _ hj.symm

/-! ### Skips (R103 to R106) -/

/-- A skip writes `pc` only, and adds 4 exactly if its condition holds (R83). -/
theorem State.skipIf_eq (s : State) {c : Bool} {p : Prop} [Decidable p] (h : c = true ↔ p) :
    s.skipIf c = { s with pc := if p then s.pc + 4 else s.pc + 2 } := by
  rw [State.skipIf, apply_ite (s.pc + ·)]
  simp only [h, State.setPc]

/-- The condition "equal" of a skip, on the bytes' numbers (R103, R105). -/
theorem beq_eq_true_iff_toNat (a b : Byte) : (a == b) = true ↔ a.toNat = b.toNat :=
  beq_iff_eq.trans BitVec.toNat_eq

/-- The condition "not equal" of a skip, on the bytes' numbers (R104, R106). -/
theorem bne_eq_true_iff_toNat (a b : Byte) : (a != b) = true ↔ a.toNat ≠ b.toNat :=
  bne_iff_ne.trans BitVec.toNat_ne_iff_ne.symm

/-- Settles O25: each skip by its condition. -/
theorem skipsOnALiteral : Obligations.SkipsOnALiteral := by
  unfold Obligations.SkipsOnALiteral
  intro s x nn
  exact ⟨congrArg _ (s.skipIf_eq (beq_eq_true_iff_toNat _ nn)), congrArg _ (s.skipIf_eq (bne_eq_true_iff_toNat _ nn))⟩

/-- Settles O26: each skip by its condition, for which `x = y` is no case of its own. -/
theorem skipsOnTwoRegisters : Obligations.SkipsOnTwoRegisters := by
  unfold Obligations.SkipsOnTwoRegisters
  intro s x y
  exact ⟨congrArg _ (s.skipIf_eq (beq_eq_true_iff_toNat _ _)), congrArg _ (s.skipIf_eq (bne_eq_true_iff_toNat _ _))⟩

end Sys2Proof.Machine
end

section
/-!
PROOF. Register loads, arithmetic and logic (42_alu.md). An instruction without a flag leaves its result in `Vx`; one with
a flag then writes `VF`, so that with `x = F` the flag is what stands there (R84).
-/
namespace Sys2Proof.Machine

variable {s : State} {i : Instr} {x : RegIdx} {v : Byte}

/-! ### What the two kinds of instruction leave (R84) -/

/-- Only `Vx` is written: what holds of the result holds of `Vx`, and every other register is kept, `VF` among them. -/
theorem exec_of_setV {P : Byte → Prop} (h : exec i s = .next (s.setV x v).advance) (hv : P v) :
    ∃ t, exec i s = .next t ∧ t = { s with V := t.V, pc := s.pc + 2 } ∧ P t.V[x] ∧
      ∀ k : RegIdx, k ≠ x → t.V[k] = s.V[k] :=
  have hx : (s.setV x v).V[x] = v := s.getV_setV_self x v
  ⟨_, h, rfl, (congrArg P hx).mpr hv, fun _ hk => s.getV_setV_of_ne hk v⟩

/-- A flag in `VF` is its truth value as a number (R12). -/
theorem State.getV_regF_setFlag_toNat (s : State) (c : Bool) : ((s.setFlag c).getV regF).toNat = c.toNat := by
  rw [s.getV_setFlag, if_pos rfl]
  cases c
  · rfl
  · rfl

/-- `Vx` is written and then `VF`: the result stands in `Vx` unless `x = F`, the flag in `VF` for every `x`. -/
theorem exec_of_setV_setFlag {c : Bool} {r f : Nat} (h : exec i s = .next ((s.setV x v).setFlag c).advance)
    (hv : v.toNat = r) (hc : c.toNat = f) :
    ∃ t, exec i s = .next t ∧ t = { s with V := t.V, pc := s.pc + 2 } ∧ (x ≠ 15 → t.V[x].toNat = r) ∧
      t.V[(15 : RegIdx)].toNat = f ∧ ∀ k : RegIdx, k ≠ x → k ≠ 15 → t.V[k] = s.V[k] := by
  refine ⟨_, h, rfl, fun hx => ?_, ?_, fun k hk hF => s.getV_setV_setFlag_of_ne hk hF v c⟩
  · have hres : ((s.setV x v).setFlag c).getV x = v :=
      ((s.setV x v).getV_setFlag_of_ne hx c).trans (s.getV_setV_self x v)
    exact (congrArg BitVec.toNat hres).trans hv
  · exact ((s.setV x v).getV_regF_setFlag_toNat c).trans hc

/-! ### Results and flags as numbers -/

/-- A difference modulo 256 borrows 256 where it would be negative (R127). -/
theorem sub_toNat_eq_ite (a b : Byte) :
    (a - b).toNat = if b.toNat ≤ a.toNat then a.toNat - b.toNat else a.toNat + 256 - b.toNat := by
  have ha := a.isLt
  have hb := b.isLt
  rw [BitVec.toNat_sub]
  split <;> omega

theorem carryOut_toNat (a b : Byte) : (carryOut a b).toNat = if 255 < a.toNat + b.toNat then 1 else 0 :=
  Bool.cond_decide _ _ _

theorem noBorrow_toNat (a b : Byte) : (noBorrow a b).toNat = if b.toNat ≤ a.toNat then 1 else 0 :=
  Bool.cond_decide _ _ _

theorem noReverseBorrow_toNat (a b : Byte) : (noReverseBorrow a b).toNat = if a.toNat > b.toNat then 0 else 1 :=
  apply_ite Bool.toNat _ _ _

/-- The bit a right shift drops is the remainder of the division by 2 (R128). -/
theorem lowBitOut_toNat (a : Byte) : (lowBitOut a).toNat = a.toNat % 2 := by
  rw [lowBitOut, BitVec.getLsbD, Nat.toNat_testBit, pow_zero, Nat.div_one]

/-- The bit a left shift drops is the top bit of a number below 256 (R130). -/
theorem highBitOut_toNat (a : Byte) : (highBitOut a).toNat = a.toNat / 128 := by
  have ha := a.isLt
  rw [highBitOut, BitVec.getLsbD, Nat.toNat_testBit]
  omega

/-- A right shift by one halves (R128). -/
theorem ushiftRight_one_toNat (a : Byte) : (a >>> 1).toNat = a.toNat / 2 :=
  (BitVec.toNat_ushiftRight a 1).trans (Nat.shiftRight_eq_div_pow _ 1)

/-- A left shift by one doubles, modulo 256 (R130). -/
theorem shiftLeft_one_toNat (a : Byte) : (a <<< 1).toNat = a.toNat * 2 % 256 := by
  rw [BitVec.toNat_shiftLeft, Nat.shiftLeft_eq, pow_one]

/-! ### The obligations -/

/-- Settles O28: the literal sum is written without a flag. -/
theorem addLiteralWrapsWithoutAFlag : Obligations.AddLiteralWrapsWithoutAFlag := by
  unfold Obligations.AddLiteralWrapsWithoutAFlag
  intro s x nn
  exact exec_of_setV (P := fun b => b.toNat = _) rfl (BitVec.toNat_add _ nn)

/-- Settles O30: the flag is the carry, written last. -/
theorem addRegistersWithCarry : Obligations.AddRegistersWithCarry := by
  unfold Obligations.AddRegistersWithCarry
  intro s x y
  exact exec_of_setV_setFlag rfl (BitVec.toNat_add _ _) (carryOut_toNat _ _)

/-- Settles O31: the flag is "no borrow", written last. -/
theorem subtractionsWithNoBorrowFlag : Obligations.SubtractionsWithNoBorrowFlag := by
  unfold Obligations.SubtractionsWithNoBorrowFlag
  intro s x y
  exact ⟨exec_of_setV_setFlag rfl (sub_toNat_eq_ite _ _) (noBorrow_toNat _ _),
    exec_of_setV_setFlag rfl (sub_toNat_eq_ite _ _) (noReverseBorrow_toNat _ _)⟩

/-- Settles O32: the flag is the bit dropped, written last. -/
theorem shiftsByOneKeepTheLostBit : Obligations.ShiftsByOneKeepTheLostBit := by
  unfold Obligations.ShiftsByOneKeepTheLostBit
  intro s x y
  exact ⟨exec_of_setV_setFlag rfl (ushiftRight_one_toNat _) (lowBitOut_toNat _),
    exec_of_setV_setFlag rfl (shiftLeft_one_toNat _) (highBitOut_toNat _)⟩

/-- Settles O27: the result is the operand itself. -/
theorem loadsIntoARegister : Obligations.LoadsIntoARegister := by
  unfold Obligations.LoadsIntoARegister
  intro s x y nn
  exact ⟨exec_of_setV (P := (· = nn)) rfl rfl, exec_of_setV (P := (· = s.V[y])) rfl rfl⟩

/-- Settles O29: bit by bit, and without a flag. -/
theorem logicInstructionsLeaveVFAlone : Obligations.LogicInstructionsLeaveVFAlone := by
  unfold Obligations.LogicInstructionsLeaveVFAlone
  intro s x y
  exact ⟨exec_of_setV (P := fun b => ∀ j, b.getLsbD j = (s.V[x].getLsbD j || s.V[y].getLsbD j))
      rfl fun _ => BitVec.getLsbD_or,
    exec_of_setV (P := fun b => ∀ j, b.getLsbD j = (s.V[x].getLsbD j && s.V[y].getLsbD j))
      rfl fun _ => BitVec.getLsbD_and,
    exec_of_setV (P := fun b => ∀ j, b.getLsbD j = (s.V[x].getLsbD j ^^ s.V[y].getLsbD j))
      rfl fun _ => BitVec.getLsbD_xor⟩

/-- Settles O33: the mask clears every bit that `nn` has clear, whatever byte it masks; drawing the next random byte
writes no register. -/
theorem rndMasksTheSuppliedByte : Obligations.RndMasksTheSuppliedByte := by
  unfold Obligations.RndMasksTheSuppliedByte
  intro s x nn
  have hx : (s.setV x (s.rnd &&& nn)).V[x] = s.rnd &&& nn := s.getV_setV_self x _
  refine ⟨_, rfl, rfl, hx, ?_, fun k hk => s.getV_setV_of_ne hk _⟩
  calc (s.setV x (s.rnd &&& nn)).V[x] &&& ~~~nn
      = s.rnd &&& (nn &&& ~~~nn) := by rw [hx, BitVec.and_assoc]
    _ = s.rnd &&& 0 := by rw [BitVec.and_not_self]
    _ = 0 := BitVec.and_zero

end Sys2Proof.Machine
end

section
/-!
PROOF. The index register, loads and stores (43_index_memory.md): what each of the six instructions writes, and that a
stored register block loads back.
-/
namespace Sys2Proof.Machine

/-! ### What goes to `I`, as a number (R140 to R142, R144, R145) -/

/-- A glyph's address never wraps: it is at most 1275 (R142). -/
theorem glyphAddr_toNat (v : Byte) : (glyphAddr v).toNat = v.toNat * 5 := by
  have hv := v.isLt
  exact (BitVec.toNat_ofNat _ 16).trans (Nat.mod_eq_of_lt (by omega))

/-- `I` plus a register wraps at 65536 (R141). -/
theorem add_byte_toNat (i : Word) (v : Byte) : (i + v.setWidth 16).toNat = (i.toNat + v.toNat) % 65536 := by
  rw [BitVec.toNat_add, BitVec.toNat_setWidth_of_le (by decide)]

theorem aboveAddr_toNat (i : Word) : (aboveAddr i).toNat = if 0xFFF < i.toNat then 1 else 0 :=
  Bool.cond_decide _ _ _

/-- `I` past the block `V0` to `Vx` wraps at 65536 (R144, R145). -/
theorem State.pastBlock_toNat (s : State) (x : RegIdx) :
    (s.pastBlock x).toNat = (s.I.toNat + x.val + 1) % 65536 :=
  BitVec.toNat_ofNat _ 16

/-! ### Instructions that store nothing (R140 to R142) -/

/-- Settles O34: the literal is zero-extended. -/
theorem loadIndexWritesOnlyI : Obligations.LoadIndexWritesOnlyI := by
  unfold Obligations.LoadIndexWritesOnlyI
  intro s nnn
  exact ⟨_, rfl, rfl, addrOperand_toNat nnn⟩

/-- Settles O35: the flag is that of the wrapped sum, and it is the one register written. -/
theorem addToIndexAndItsFlag : Obligations.AddToIndexAndItsFlag := by
  unfold Obligations.AddToIndexAndItsFlag
  intro s x
  have hsum := add_byte_toNat s.I (s.getV x)
  have hflag := aboveAddr_toNat (s.I + (s.getV x).setWidth 16)
  rw [hsum] at hflag
  exact ⟨_, rfl, rfl, hsum, ((s.setI _).getV_regF_setFlag_toNat _).trans hflag,
    fun _ hk => (s.setI _).getV_setFlag_of_ne hk _⟩

/-- Settles O36: the five bytes of a digit's glyph lie below 80, where memory still reads as FONT. -/
theorem pointAtGlyph : Obligations.PointAtGlyph := by
  unfold Obligations.PointAtGlyph
  intro s x
  have haddr : (glyphAddr (s.getV x)).toNat = s.V[x].toNat * 5 := glyphAddr_toNat _
  refine ⟨_, rfl, rfl, haddr, fun hfont d j hd => ?_⟩
  have hlt : 5 * d.val + j.val < 80 := by omega
  show some (s.mem.read ((glyphAddr (s.getV x)).toNat + j.val)) = _
  rw [haddr, hd, Nat.mul_comm, Vector.getElem?_eq_getElem hlt]
  exact congrArg some (hfont ⟨_, hlt⟩)

/-! ### Stores and loads (R143 to R145) -/

/-- `Fx65` with its block inside the memory (R145). -/
theorem execLdRegs_of_le (s : State) (x : RegIdx) (h : s.base + x.val ≤ 4095) :
    exec (.ldRegs x) s = .next { s with V := s.loadBlock x s.base, I := s.pastBlock x, pc := s.pc + 2 } :=
  guardBlock_of_le (.inr (Nat.succ_le_succ h)) _

/-- The registers up to `Vx` are loaded (R145). -/
theorem State.loadBlock_getElem_of_le (s : State) {x k : RegIdx} (h : k ≤ x) (a : Nat) :
    (s.loadBlock x a)[k] = s.mem.read (a + k.val) :=
  (s.loadBlock_getElem x a k).trans (if_pos h)

/-- Settles O37: the reads inside the three digits and outside them. -/
theorem storeDecimalDigits : Obligations.StoreDecimalDigits := by
  unfold Obligations.StoreDecimalDigits
  intro s x hw hb
  obtain ⟨hundreds, tens, ones⟩ := s.read_storedDigits x hw hb
  have hlen := decimalDigits_length (s.getV x)
  exact ⟨_, execLdB_of_le s x hb, rfl, hundreds, tens, ones, fun _ => s.read_storedDigits_outside x hw hb,
    Memory.wf_writeBlock _ _ _ (by omega) hw, Memory.writeBlock_font _ _ _⟩

/-- Settles O38: the reads inside the block and outside it. -/
theorem storeRegisterBlock : Obligations.StoreRegisterBlock := by
  unfold Obligations.StoreRegisterBlock
  intro s x hw hb
  have hlen := s.regBlock_length x
  exact ⟨_, execStRegs_of_le s x hb, rfl, fun _ hk => s.read_storedBlock hw hb hk rfl,
    fun _ => s.read_storedBlock_outside hw hb, s.pastBlock_toNat x,
    Memory.wf_writeBlock _ _ _ (by omega) hw, Memory.writeBlock_font _ _ _⟩

/-- Settles O39: a register is loaded or kept by its side of `x`. -/
theorem loadRegisterBlock : Obligations.LoadRegisterBlock := by
  unfold Obligations.LoadRegisterBlock
  intro s x hb
  exact ⟨_, execLdRegs_of_le s x hb, rfl, fun _ hk => s.loadBlock_getElem_of_le hk _,
    fun _ hk => s.loadBlock_getElem_of_not_le (not_le.mpr hk) _, s.pastBlock_toNat x⟩

/-- Settles O40: with `I` reset, the load reads the addresses the store wrote; the registers in between play no part. -/
theorem storedBlockLoadsBack : Obligations.StoredBlockLoadsBack := by
  unfold Obligations.StoredBlockLoadsBack
  intro s x V' hw hb
  refine ⟨_, _, execStRegs_of_le s x hb, execLdRegs_of_le _ x hb, fun k hk => ?_⟩
  exact (State.loadBlock_getElem_of_le _ hk _).trans (s.read_storedBlock hw hb hk rfl)

end Sys2Proof.Machine
end

section
/-!
PROOF. The display (44_display.md): what the screen and `VF` are after `CLS`, after one draw, and after the same draw
again.
-/
namespace Sys2Proof.Machine

/-! ### The state a draw leaves (R151) -/

/-- The framebuffer a sprite of `n` rows leaves, and whether it hit a pixel that was on (R151). -/
def State.drawSprite (s : State) (x y : RegIdx) (n : Nibble) : Frame × Bool :=
  drawRows (s.getV x).toNat (s.mem.readBlock s.base n.toNat) (s.getV y).toNat (s.fb, false)

/-- The next state of `Dxyn` (R151, R84). -/
def State.afterDrw (s : State) (x y : RegIdx) (n : Nibble) : State :=
  ((s.setFb (s.drawSprite x y n).1).setFlag (s.drawSprite x y n).2).advance

section
variable {s : State} {x y : RegIdx} {n : Nibble} {r : Fin 32} {c : Fin 64}

/-- `Dxyn` with its sprite inside the memory, or with no sprite byte (R42, R151). -/
theorem execDrw_of_le (x y : RegIdx) (h : n.toNat = 0 ∨ s.base + n.toNat - 1 ≤ 4095) :
    exec (.drw x y n) s = .next (s.afterDrw x y n) :=
  guardBlock_of_le (by omega) _

/-! ### Pixels and collision (R151 to R153) -/

/-- A row's set bit at column `c` is bit `7 - j` where `c` is column `j` of the row (R152). -/
theorem rowSets_iff {b : Byte} {x0 c : Nat} :
    rowSets b x0 c = true ↔ ∃ j < 8, x0 + j = c ∧ b.getLsbD (7 - j) = true := by
  simp only [rowSets, Bool.and_eq_true, decide_eq_true_eq]
  constructor
  · rintro ⟨hc, hbit⟩
    exact ⟨c - x0, by omega, by omega, hbit⟩
  · rintro ⟨j, hj, rfl, hbit⟩
    exact ⟨by omega, by rwa [Nat.add_sub_cancel_left]⟩

/-- The rows' set bit at row `r` is one of byte `k` where `r` is row `k` of the sprite (R151). -/
theorem rowsSet_iff {bs : List Byte} {x0 ry r c : Nat} :
    rowsSet bs x0 ry r c = true ↔ ∃ k b, bs[k]? = some b ∧ ry + k = r ∧ rowSets b x0 c = true := by
  simp only [rowsSet, Bool.and_eq_true, decide_eq_true_eq]
  constructor
  · rintro ⟨hr, hbit⟩
    cases hb : bs[r - ry]? with
    | none => rw [hb] at hbit; cases hbit
    | some b => rw [hb] at hbit; exact ⟨r - ry, b, hb, by omega, hbit⟩
  · rintro ⟨k, b, hb, rfl, hbit⟩
    exact ⟨by omega, by rwa [Nat.add_sub_cancel_left, hb]⟩

/-- A block holds the bytes at its `n` addresses and no more (R44). -/
theorem Memory.readBlock_getElem?_eq_some {m : Memory} {a n k : Nat} {b : Byte} :
    (m.readBlock a n)[k]? = some b ↔ k < n ∧ m.read (a + k) = b := by
  simp only [List.getElem?_eq_some_iff, Memory.readBlock_length, Memory.readBlock_getElem, exists_prop]

/-- The bit that the drawing finds for a pixel, in the rows it read from memory, is the bit the claims speak of. -/
theorem rowsSet_readBlock_iff :
    rowsSet (s.mem.readBlock s.base n.toNat) (s.getV x).toNat (s.getV y).toNat r c = true ↔ SpriteSets s x y n r c := by
  simp only [rowsSet_iff, rowSets_iff, Memory.readBlock_getElem?_eq_some]
  constructor
  · rintro ⟨k, _, ⟨hk, rfl⟩, hr, j, hj, hc, hbit⟩
    exact ⟨k, j, hk, hj, hc, hr, hbit⟩
  · rintro ⟨k, j, hk, hj, hc, hr, hbit⟩
    exact ⟨k, _, ⟨hk, rfl⟩, hr, j, hj, hc, hbit⟩

/-- A pixel that a set sprite bit falls on is toggled. -/
theorem SpriteSets.drawSprite_pixel (h : SpriteSets s x y n r c) : (s.drawSprite x y n).1[r][c] = !s.fb[r][c] := by
  rw [State.drawSprite, drawRows_pixel, rowsSet_readBlock_iff.mpr h, Bool.xor_true]

/-- A pixel that none falls on is kept. -/
theorem drawSprite_pixel_of_not_spriteSets (h : ¬ SpriteSets s x y n r c) :
    (s.drawSprite x y n).1[r][c] = s.fb[r][c] := by
  rw [State.drawSprite, drawRows_pixel, Bool.eq_false_of_not_eq_true (mt rowsSet_readBlock_iff.mp h), Bool.xor_false]

/-- A draw hits exactly if a set sprite bit falls on a pixel that was on. -/
theorem State.drawSprite_hit :
    (s.drawSprite x y n).2 = true ↔ ∃ (r : Fin 32) (c : Fin 64), SpriteSets s x y n r c ∧ s.fb[r][c] = true := by
  rw [State.drawSprite, drawRows_hit]
  simp only [rowsSet_readBlock_iff, Bool.false_eq_true, false_or]

/-- A flag in `VF` is 1 exactly if it is raised (R12). -/
theorem State.getV_regF_setFlag_eq_one_iff (s : State) (b : Bool) : (s.setFlag b).getV regF = 1 ↔ b = true := by
  rw [s.getV_setFlag, if_pos rfl]
  cases b
  · decide
  · decide

/-- `VF` is 1 after a draw exactly if a set sprite bit falls on a pixel that was on, whatever `VF` held before. -/
theorem State.afterDrw_VF_eq_one_iff : (s.afterDrw x y n).V[(15 : RegIdx)] = 1 ↔
    ∃ (r : Fin 32) (c : Fin 64), SpriteSets s x y n r c ∧ s.fb[r][c] = true :=
  ((s.setFb _).getV_regF_setFlag_eq_one_iff _).trans State.drawSprite_hit

/-! ### The same draw again -/

/-- A draw whose coordinates are not in `VF` leaves the sprite where it is: the coordinates, `I` and memory are kept. -/
theorem spriteSets_afterDrw_iff (hx : x ≠ 15) (hy : y ≠ 15) :
    SpriteSets (s.afterDrw x y n) x y n r c ↔ SpriteSets s x y n r c := by
  have hVx : (s.afterDrw x y n).getV x = s.getV x := (s.setFb _).getV_setFlag_of_ne hx _
  have hVy : (s.afterDrw x y n).getV y = s.getV y := (s.setFb _).getV_setFlag_of_ne hy _
  unfold SpriteSets
  rw [hVx, hVy]
  rfl

/-- The second draw toggles back every pixel that the first one toggled. -/
theorem afterDrw_afterDrw_pixel (hx : x ≠ 15) (hy : y ≠ 15) (r : Fin 32) (c : Fin 64) :
    ((s.afterDrw x y n).afterDrw x y n).fb[r][c] = s.fb[r][c] := by
  by_cases h : SpriteSets s x y n r c
  · calc ((s.afterDrw x y n).afterDrw x y n).fb[r][c]
        = !(s.afterDrw x y n).fb[r][c] := ((spriteSets_afterDrw_iff hx hy).mpr h).drawSprite_pixel
      _ = !!s.fb[r][c] := congrArg _ h.drawSprite_pixel
      _ = s.fb[r][c] := Bool.not_not _
  · exact (drawSprite_pixel_of_not_spriteSets (mt (spriteSets_afterDrw_iff hx hy).mp h)).trans
      (drawSprite_pixel_of_not_spriteSets h)

/-- The second draw hits a pixel of the sprite exactly if the first one turned it on. -/
theorem afterDrw_afterDrw_VF_eq_one_iff (hx : x ≠ 15) (hy : y ≠ 15) :
    ((s.afterDrw x y n).afterDrw x y n).V[(15 : RegIdx)] = 1 ↔
      ∃ (r : Fin 32) (c : Fin 64), SpriteSets s x y n r c ∧ s.fb[r][c] = false := by
  have htoggled (r : Fin 32) (c : Fin 64) (h : SpriteSets s x y n r c) :
      (s.afterDrw x y n).fb[r][c] = true ↔ s.fb[r][c] = false := by
    rw [show (s.afterDrw x y n).fb[r][c] = !s.fb[r][c] from h.drawSprite_pixel, Bool.not_eq_true']
  rw [State.afterDrw_VF_eq_one_iff]
  simp only [spriteSets_afterDrw_iff hx hy]
  exact exists_congr fun r => exists_congr fun c => and_congr_right (htoggled r c)

end

/-! ### The obligations -/

/-- Settles O42: every pixel of the blank framebuffer is off. -/
theorem clsTurnsEveryPixelOff : Obligations.ClsTurnsEveryPixelOff := by
  unfold Obligations.ClsTurnsEveryPixelOff
  exact fun s => ⟨_, rfl, rfl, fun r c => by simp [blankFrame]⟩

/-- Settles O43: pixels and collision by the lemmas above; `VF` is written last and is the only register written. -/
theorem drawTogglesExactlyTheSpritePixels : Obligations.DrawTogglesExactlyTheSpritePixels := by
  unfold Obligations.DrawTogglesExactlyTheSpritePixels
  intro s x y n hb
  have hzero_or_one : (s.afterDrw x y n).V[(15 : RegIdx)] = 0 ∨ (s.afterDrw x y n).V[(15 : RegIdx)] = 1 :=
    (s.setFb _).getV_regF_setFlag _
  exact ⟨s.afterDrw x y n, execDrw_of_le x y hb, rfl,
    fun _ _ => ⟨SpriteSets.drawSprite_pixel, drawSprite_pixel_of_not_spriteSets⟩,
    State.afterDrw_VF_eq_one_iff.mpr,
    fun hnone => hzero_or_one.resolve_right (mt State.afterDrw_VF_eq_one_iff.mp hnone),
    fun _ hk => (s.setFb _).getV_setFlag_of_ne hk _⟩

/-- Settles O44: the second draw finds the sprite where the first one did, and toggles its pixels back. -/
theorem drawTwiceRestoresTheScreen : Obligations.DrawTwiceRestoresTheScreen := by
  unfold Obligations.DrawTwiceRestoresTheScreen
  intro s x y n hx hy hb
  refine ⟨_, _, execDrw_of_le x y hb, execDrw_of_le x y hb, ?_, afterDrw_afterDrw_VF_eq_one_iff hx hy⟩
  exact Vector.ext fun r hr => Vector.ext fun c hc => afterDrw_afterDrw_pixel hx hy ⟨r, hr⟩ ⟨c, hc⟩

/-- Refutes O45: one draw after reset turns on every pixel of the sprite, the top row of the glyph 0. Of two more such
draws, the first turns them off and the second turns them on again without a hit. -/
theorem not_secondDrawAlwaysCollides : ¬ Obligations.SecondDrawAlwaysCollides := by
  unfold Obligations.SecondDrawAlwaysCollides
  intro h
  have hcorner : SpriteSets ((State.initial recommendedFont 0 0).afterDrw 0 0 1) 0 0 1 0 0 :=
    ⟨0, 0, by decide, by decide, by decide, by decide, by decide⟩
  have hcollides := h _ _ _ 0 0 1 (by decide) (by decide) (execDrw_of_le 0 0 (by decide))
    (execDrw_of_le 0 0 (by decide)) ⟨0, 0, hcorner⟩
  exact absurd hcollides (by decide)

end Sys2Proof.Machine
end

section
/-!
PROOF. Keypad and timers (45_keypad_timers.md): the skips on a key, the wait for the highest key down, and the timer
instructions, whose cycle ends with a tick that sees what they wrote.
-/
namespace Sys2Proof.Machine

/-! ### The skips on a key (R160, R161, R195) -/

/-- The key found by a register's content is the key of that number (R160). -/
theorem key_getElem_toNat {key : Vector Bool 16} {v : Byte} {k : Fin 16} (hk : v.toNat = k.val) (hv : v.toNat < 16) :
    key[v.toNat] = key[k] :=
  getElem_congr_idx hk

/-- Settles O46: below 16 each skip by its condition on the named key, from 16 on the fault. -/
theorem keySkipsReadTheNamedKey : Obligations.KeySkipsReadTheNamedKey := by
  unfold Obligations.KeySkipsReadTheNamedKey
  intro s x
  refine ⟨fun k hk => ?_, fun hv => ?_⟩
  · have hlt : (s.getV x).toNat < 16 := hk ▸ k.isLt
    have hkey : s.key[(s.getV x).toNat] = s.key[k] := key_getElem_toNat hk hlt
    have hdown : s.key[(s.getV x).toNat] = true ↔ s.key[k] = true := by rw [hkey]
    have hup : (!s.key[(s.getV x).toNat]) = true ↔ s.key[k] = false := by rw [hkey, Bool.not_eq_true']
    exact ⟨(execSkp_of_lt s x hlt).trans (congrArg _ (s.skipIf_eq hdown)),
      (execSknp_of_lt s x hlt).trans (congrArg _ (s.skipIf_eq hup))⟩
  · have hinfo : BitVec.ofNat 16 s.V[x].toNat = (s.getV x).setWidth 16 := BitVec.ofNat_toNat 16 _
    rw [hinfo]
    exact ⟨execSkp_of_ge s x hv, execSknp_of_ge s x hv⟩

/-! ### The timers (R162, R164, R165) -/

/-- Settles O47: the register gets `DT`, which only then ticks. -/
theorem readDelayTimerBeforeTheTick : Obligations.ReadDelayTimerBeforeTheTick := by
  unfold Obligations.ReadDelayTimerBeforeTheTick
  intro s x
  exact ⟨exec_of_setV (P := (· = s.DT)) rfl rfl,
    fun hi => ⟨_, step_of_exec hi rfl, s.getV_setV_self x s.DT, tick_toNat s.DT⟩⟩

/-- Settles O48: the tick sees the timer that the instruction wrote. -/
theorem timerWritesTickInTheirOwnCycle : Obligations.TimerWritesTickInTheirOwnCycle := by
  unfold Obligations.TimerWritesTickInTheirOwnCycle
  intro s x
  exact ⟨rfl, rfl, fun hi => ⟨_, step_of_exec hi rfl, tick_toNat _⟩,
    fun hi => ⟨_, step_of_exec hi rfl, tick_toNat _, (s.setST _).advance.timerTick_sound_eq_true_iff⟩⟩

/-! ### The wait for a key (R163) -/

section
variable {key : Vector Bool 16} {m : RegIdx}

/-- A list of keys that are all up has none down. -/
theorem filter_down_eq_nil {keys : List RegIdx} (hup : ∀ k ∈ keys, key[k] = false) :
    keys.filter (fun k => key[k]) = [] :=
  List.filter_eq_nil_iff.mpr fun k hk => Bool.eq_false_iff.mp (hup k hk)

/-- The scan answers `m` if `m` is down and no key above it is: the keys after `m` in the scan are those above it. -/
theorem lastKeyDown_eq_some (hm : key[m] = true) (hup : ∀ k : Fin 16, m < k → key[k] = false) :
    lastKeyDown key = some m := by
  obtain ⟨below, above, hsplit⟩ := List.append_of_mem (List.mem_finRange m)
  have hsorted : (below ++ m :: above).Pairwise (· < ·) := hsplit ▸ List.pairwise_lt_finRange 16
  obtain ⟨-, hfrom, -⟩ := List.pairwise_append.mp hsorted
  have habove : ∀ k ∈ above, m < k := fun _ => List.rel_of_pairwise_cons hfrom
  rw [lastKeyDown, foldl_lastDown, hsplit, List.filter_append, List.filter_cons_of_pos (p := fun k => key[k]) hm,
    filter_down_eq_nil fun k hk => hup k (habove k hk), List.getLast?_concat, Option.some_or]

/-- The scan answers nothing if no key is down. -/
theorem lastKeyDown_eq_none (hup : ∀ k : Fin 16, key[k] = false) : lastKeyDown key = none := by
  rw [lastKeyDown, foldl_lastDown, filter_down_eq_nil fun k _ => hup k, List.getLast?_nil, Option.none_or]

end

/-- With a key found `Fx0A` writes its number to `Vx` and advances (R163). -/
theorem execLdVxK_of_some {s : State} {k : RegIdx} (x : RegIdx) (h : lastKeyDown s.key = some k) :
    exec (.ldVxK x) s = .next (s.setV x (BitVec.ofNat 8 k.val)).advance := by
  simp only [exec, execLdVxK, h]

/-- With no key found `Fx0A` leaves the state as it is (R163). -/
theorem execLdVxK_of_none {s : State} (x : RegIdx) (h : lastKeyDown s.key = none) : exec (.ldVxK x) s = .next s := by
  simp only [exec, execLdVxK, h]

/-- A key number fits a byte (R163). -/
theorem keyNumber_toNat (k : RegIdx) : (BitVec.ofNat 8 k.val).toNat = k.val :=
  (BitVec.toNat_ofNat _ 8).trans (Nat.mod_eq_of_lt (k.isLt.trans (by decide)))

/-- Settles O49: by what the scan finds; the waiting cycle still ticks. -/
theorem waitForKeyTakesTheHighest : Obligations.WaitForKeyTakesTheHighest := by
  unfold Obligations.WaitForKeyTakesTheHighest
  intro s x
  refine ⟨fun m hm hup => ?_, fun hup => ?_⟩
  · exact exec_of_setV (P := fun b => b.toNat = m.val) (execLdVxK_of_some x (lastKeyDown_eq_some hm hup))
      (keyNumber_toNat m)
  · have hwait : exec (.ldVxK x) s = .next s := execLdVxK_of_none x (lastKeyDown_eq_none hup)
    exact ⟨hwait, fun hi => step_of_exec hi hwait⟩

end Sys2Proof.Machine
end

section
/-!
PROOF. The two host flags (10_state.md R20, 50_host_interface.md R174): nothing a program computes depends on them.
-/
namespace Sys2Proof.Machine

/-- The state with other host flags. -/
def State.withFlags (s : State) (redraw sound : Bool) : State := { s with redraw := redraw, sound := sound }

section
variable {s t : State} {i : Instr} {a b : Bool}

/-- Fetch and decode read neither flag (R81, R82). -/
theorem State.fetchInstr_withFlags (s : State) (a b : Bool) : (s.withFlags a b).fetchInstr = s.fetchInstr := rfl

/-- Under other flags the tick leaves the same state but for them; it sets `sound` or keeps it (R86). -/
theorem State.timerTick_withFlags (s : State) (a b : Bool) :
    (s.withFlags a b).timerTick = s.timerTick.withFlags a (if s.ST = 1 then true else b) := rfl

/-- An instruction that goes on goes on under other flags too, to the same state but for them; it sets `redraw` or keeps it
and keeps `sound`. The cases are grouped by what the meaning tests: nothing, the bounds of memory, a key number, the stack,
the keys. -/
theorem exec_withFlags (h : exec i s = .next t) : ∃ c, exec i (s.withFlags a b) = .next (t.withFlags c b) := by
  cases i with
  | cls => cases h; exact ⟨true, rfl⟩
  | jp | seImm | sneImm | seReg | ldImm | addImm | ldReg | orReg | andReg | xorReg | addReg | subReg | shr | subnReg | shl
  | sneReg | ldI | jpV0 | rnd | ldVxDT | ldDTVx | ldSTVx | addI | ldF => cases h; exact ⟨a, rfl⟩
  | drw => obtain ⟨hb, hgo⟩ := guardBlock_next h; cases hgo; exact ⟨true, guardBlock_of_le hb _⟩
  | ldB | stRegs | ldRegs => obtain ⟨hb, hgo⟩ := guardBlock_next h; cases hgo; exact ⟨a, guardBlock_of_le hb _⟩
  | skp x => obtain ⟨hv, rfl⟩ := execSkp_next h; exact ⟨a, execSkp_of_lt (s.withFlags a b) x hv⟩
  | sknp x => obtain ⟨hv, rfl⟩ := execSknp_next h; exact ⟨a, execSknp_of_lt (s.withFlags a b) x hv⟩
  | ret => obtain ⟨hs, rfl⟩ := execRet_next h; exact ⟨a, execRet_of_pos (s.withFlags a b) hs⟩
  | call nnn => obtain ⟨hs, rfl⟩ := execCall_next h; exact ⟨a, execCall_of_lt (s.withFlags a b) nnn hs⟩
  | ldVxK x =>
    cases hk : lastKeyDown s.key with
    | some k => rw [execLdVxK_of_some x hk] at h; cases h; exact ⟨a, execLdVxK_of_some x hk⟩
    | none => rw [execLdVxK_of_none x hk] at h; cases h; exact ⟨a, execLdVxK_of_none x hk⟩

end

/-- Settles O12: the same instruction is fetched, and neither it nor the tick lets a flag into another element. -/
theorem hostFlagsDoNotAffectExecution : Obligations.HostFlagsDoNotAffectExecution := by
  unfold Obligations.HostFlagsDoNotAffectExecution
  intro s t a b h
  obtain ⟨i, u, hi, hu, rfl⟩ := step_next h
  obtain ⟨c, hc⟩ := exec_withFlags (a := a) (b := b) hu
  have hstep : step (s.withFlags a b) = .next (u.withFlags c b).timerTick :=
    step_of_exec ((s.fetchInstr_withFlags a b).trans hi) hc
  exact ⟨_, hstep, u.timerTick_withFlags c b⟩

end Sys2Proof.Machine
end

section
/-!
PROOF. The host's operations and their port rendering (50_host_interface.md): the invariant they keep, what `Load` leaves
and that the ports load the same machine, what the other operations write, and what an edge reports and shows.
-/
namespace Sys2Proof.Machine

/-- Settles O52: reset and `Load` by their own lemmas; the keys and the two flags are no part of the invariant. -/
theorem hostOperationsKeepTheInvariant : Obligations.HostOperationsKeepTheInvariant := by
  unfold Obligations.HostOperationsKeepTheInvariant
  exact ⟨fun _ => State.initial_inv _ _ _, fun s bytes => load_inv bytes s, fun _ hs => ⟨fun _ => hs, hs, hs⟩⟩

/-! ### `Load` (R176, R196) -/

section
variable {bytes : List Byte}

/-- The host's length check, as a bound (R176). -/
theorem programFits_iff : programFits bytes = true ↔ bytes.length ≤ 3584 := decide_eq_true_iff

/-- A program that fits is stored from 512 upward into the reset state (R176). -/
theorem load_of_fits (h : programFits bytes = true) (s : State) : load bytes s =
    ((resetMachine s).setMem ((resetMachine s).mem.writeBlock 512 bytes), .loaded) := if_pos h

/-- A longer program is rejected, and the reset state is left (R176, R196). -/
theorem load_of_not_fits (h : ¬ programFits bytes = true) (s : State) :
    load bytes s = (resetMachine s, .romTooLarge) := if_neg h

end

/-- Settles O55: by the length check; a program that fits ends at or below 4096, so that it reads back where it was put. -/
theorem loadPlacesTheProgramOrRejectsIt : Obligations.LoadPlacesTheProgramOrRejectsIt := by
  unfold Obligations.LoadPlacesTheProgramOrRejectsIt
  intro s bytes
  refine ⟨fun hlen => ?_, fun hlen => load_of_not_fits (mt programFits_iff.mp (not_le.mpr hlen)) s⟩
  have hwf : (resetMachine s).mem.wf = true := State.initial_mem_wf _ _ _
  have hend : 512 + bytes.length ≤ 4096 := by omega
  rw [load_of_fits (programFits_iff.mpr hlen)]
  exact ⟨rfl, rfl, fun i hi => Memory.read_writeBlock_of_mem hwf hend i hi rfl,
    fun a => Memory.read_writeBlock_of_not_mem hwf hend⟩

/-! ### The load port (R180) -/

/-- A write edge of the load port stores its byte and does nothing else to the machine. -/
theorem edge_write_core {a : Nat} (ha : a < 4096) (b : Byte) (s : PortState) :
    (edge { idlePorts with ldWe := true, ldAddr := BitVec.ofNat 12 a, ldData := b } s).core =
      s.core.setMem (s.core.mem.write a b) := by
  have haddr : (BitVec.ofNat 12 a).toNat = a := (BitVec.toNat_ofNat a 12).trans (Nat.mod_eq_of_lt ha)
  rw [edge_core, operateEdge_host rfl rfl, hostEdge_eq]
  simp only [haddr]
  rfl

/-- Write edges at consecutive addresses inside the memory store the block. -/
theorem portWrites_core (bytes : List Byte) (a : Nat) (s : PortState) (h : a + bytes.length ≤ 4096) :
    (portWrites a bytes s).core = s.core.setMem (s.core.mem.writeBlock a bytes) := by
  induction bytes generalizing a s with
  | nil => rfl
  | cons b rest ih =>
    rw [List.length_cons] at h
    rw [portWrites, ih (a + 1) _ (by omega), edge_write_core (by omega)]
    rfl

/-- A reset edge leaves the machine that `Initialize` leaves. -/
theorem edge_rst_core {p : PortIn} (h : p.rst = true) (s : PortState) : (edge p s).core = resetMachine s.core := by
  rw [edge_core, operateEdge_rst h]

/-- Settles O57: the reset edge is `Initialize`, and the write edges store the block that `Load` stores. -/
theorem portLoadIsLoad : Obligations.PortLoadIsLoad := by
  unfold Obligations.PortLoadIsLoad
  intro s bytes hfit
  have hlen := programFits_iff.mp hfit
  rw [load_of_fits hfit]
  refine ⟨?_, rfl⟩
  rw [portLoad, portWrites_core bytes 512 _ (by omega), edge_rst_core rfl]

/-! ### The other host writes (R173, R174, R180) -/

/-- Settles O58: each operation is its own record update, and a port edge of the host phase is `hostEdge_eq`; the load port's
address has 12 bits, so that its byte lies inside the memory. -/
theorem hostWritesChangeOnlyTheirElement : Obligations.HostWritesChangeOnlyTheirElement := by
  unfold Obligations.HostWritesChangeOnlyTheirElement
  refine ⟨fun s k => ⟨rfl, fun j => rfl⟩, fun s => ⟨rfl, rfl⟩, fun p s hr ht => ?_⟩
  rw [edge_core, operateEdge_host hr ht, hostEdge_eq]
  refine ⟨rfl, fun hwe hwf => ?_⟩
  simp only [hwe, if_true]
  refine ⟨?_, fun a ha => ?_, Memory.wf_write _ _ _ p.ldAddr.isLt hwf, Memory.write_font _ _ _⟩
  · rw [Memory.read_write _ _ _ _ hwf, if_pos rfl]
  · rw [Memory.read_write _ _ _ _ hwf, if_neg ha]

/-! ### The report register (R180, R190) -/

/-- A keypad that has key `k` as bit `k` of the input is the one the port gives. -/
theorem eq_keysOfPort {k : Vector Bool 16} {key : BitVec 16} (h : ∀ j : Fin 16, k[j] = key.getLsbD j.val) :
    k = keysOfPort key :=
  Vector.ext fun j hj => (h ⟨j, hj⟩).trans (keysOfPort_getElem key j hj).symm

/-- Settles O59: by the kind of the edge, and for a cycle by what it returned. -/
theorem portEdgesReportTheCyclesResult : Obligations.PortEdgesReportTheCyclesResult := by
  unfold Obligations.PortEdgesReportTheCyclesResult
  intro p s
  refine ⟨fun hr ht hwe k hk => ?_, fun hr ht hwe => ?_, fun hr => ?_, fun hr ht => ?_⟩
  · obtain rfl := eq_keysOfPort hk
    rw [edge_core, edge_errValid, edge_errCode, edge_errInfo, operateEdge_tick hr ht hwe]
    refine ⟨tickEdge_core p s, fun hok => ?_, fun f hf => ?_⟩
    · rw [tickEdge_of_ok (Prod.ext rfl hok)]
    · rw [tickEdge_of_fatal (Prod.ext rfl hf)]
      refine ⟨rfl, fun w => ⟨?_, ?_, ?_, ?_, ?_⟩⟩
      all_goals
        rintro rfl
        exact ⟨rfl, rfl⟩
  · rw [edge_core, edge_errValid, operateEdge_blocked hr ht hwe]
    exact ⟨rfl, rfl⟩
  · exact ⟨edge_rst_core hr s, by rw [edge_errValid, operateEdge_rst hr]⟩
  · rw [edge_errValid, edge_errCode, edge_errInfo, operateEdge_host hr ht]
    exact ⟨rfl, rfl, rfl⟩

/-! ### The framebuffer read port (R17, R180) -/

/-- Settles O60: the edge reads the framebuffer it leaves at the flat address. -/
theorem portReadShowsTheSampledPixel : Obligations.PortReadShowsTheSampledPixel := by
  unfold Obligations.PortReadShowsTheSampledPixel
  intro p s r c haddr
  exact fbPixel_of_flat haddr (edge p s).core

end Sys2Proof.Machine
end

section
/-!
PROOF. The fatal errors (60_exceptions.md R190 to R201): the exact condition of each, what a condition reads, and what an
unknown word makes of its cycle.
-/
namespace Sys2Proof.Machine

/-! ### The condition of each fatal error (R190 to R195, R199) -/

section
variable {s t : State} {i : Instr} {f : Fault}

/-- A guarded access that would go on faults exactly if it touches an address above 4095 (R42, R194). -/
theorem guardBlock_eq_fault_iff {base n : Nat} :
    guardBlock base n (.next t) = .fault f ↔
      (1 ≤ n ∧ 4095 < base + n - 1) ∧ f = .memoryOutOfBounds (BitVec.ofNat 16 (max base 4096)) := by
  by_cases hb : n = 0 ∨ base + n ≤ 4096
  · rw [guardBlock_of_le hb]
    exact iff_of_false nofun fun h => by omega
  · rw [guardBlock_of_gt (by omega) (by omega), Host.Outcome.fault.injEq, eq_comm]
    exact (and_iff_right (by omega)).symm

/-- A guarded key access that would go on faults exactly if the number is no key's (R160, R195). -/
theorem guardKey_eq_fault_iff {v : Byte} {next : Bool → State} :
    guardKey s v (fun down => .next (next down)) = .fault f ↔
      15 < v.toNat ∧ f = .keyIndexOutOfRange (BitVec.ofNat 16 v.toNat) := by
  by_cases hv : v.toNat < 16
  · rw [guardKey_of_lt s hv]
    exact iff_of_false nofun fun h => by omega
  · rw [guardKey_of_ge s (by omega), Host.Outcome.fault.injEq, eq_comm, BitVec.ofNat_toNat]
    exact (and_iff_right (by omega)).symm

/-- `2nnn` faults exactly on a full stack (R192). -/
theorem execCall_eq_fault_iff {nnn : Addr} : exec (.call nnn) s = .fault f ↔
    s.sp.val = 16 ∧ f = .stackOverflow (BitVec.ofNat 16 (0x2000 + nnn.toNat)) := by
  by_cases hs : s.sp.val < 16
  · rw [execCall_of_lt s nnn hs]
    exact iff_of_false nofun fun h => by omega
  · have hfull : s.sp.val = 16 := by omega
    rw [execCall_of_full s nnn hfull, encode_call, Host.Outcome.fault.injEq, eq_comm]
    exact (and_iff_right hfull).symm

/-- `00EE` faults exactly on an empty stack (R193). -/
theorem execRet_eq_fault_iff : exec .ret s = .fault f ↔ s.sp.val = 0 ∧ f = .stackUnderflow 0x00EE := by
  by_cases hs : 0 < s.sp.val
  · rw [execRet_of_pos s hs]
    exact iff_of_false nofun fun h => by omega
  · have hempty : s.sp.val = 0 := by omega
    rw [execRet_of_zero s hempty, Host.Outcome.fault.injEq, eq_comm]
    exact (and_iff_right hempty).symm

/-- `Fx0A` raises nothing: with no key down it waits (R163). -/
theorem execLdVxK_ne_fault {x : RegIdx} : exec (.ldVxK x) s ≠ .fault f := by
  cases hk : lastKeyDown s.key with
  | some k => rw [execLdVxK_of_some x hk]; exact nofun
  | none => rw [execLdVxK_of_none x hk]; exact nofun

/-- `Dxyn` faults exactly if it reads a sprite byte above 4095; with no byte it reads none (R151, R194). -/
theorem execDrw_eq_fault_iff {x y : RegIdx} {n : Nibble} : exec (.drw x y n) s = .fault f ↔
    (1 ≤ n.toNat ∧ 4095 < s.I.toNat + n.toNat - 1) ∧
      f = .memoryOutOfBounds (BitVec.ofNat 16 (max s.I.toNat 4096)) := guardBlock_eq_fault_iff

/-- `Fx33` faults exactly if one of its three bytes is above 4095 (R143, R194). -/
theorem execLdB_eq_fault_iff {x : RegIdx} : exec (.ldB x) s = .fault f ↔
    4095 < s.I.toNat + 2 ∧ f = .memoryOutOfBounds (BitVec.ofNat 16 (max s.I.toNat 4096)) :=
  guardBlock_eq_fault_iff.trans (and_congr_left' (and_iff_right (by decide)))

/-- An access to the register block faults exactly if its last byte is above 4095 (R144, R145, R194). -/
theorem guardBlock_blockLen_eq_fault_iff {x : RegIdx} : guardBlock s.base (blockLen x) (.next t) = .fault f ↔
    4095 < s.I.toNat + x.val ∧ f = .memoryOutOfBounds (BitVec.ofNat 16 (max s.I.toNat 4096)) :=
  guardBlock_eq_fault_iff.trans (and_congr_left' (and_iff_right (Nat.succ_pos x.val)))

theorem execStRegs_eq_fault_iff {x : RegIdx} : exec (.stRegs x) s = .fault f ↔
    4095 < s.I.toNat + x.val ∧ f = .memoryOutOfBounds (BitVec.ofNat 16 (max s.I.toNat 4096)) :=
  guardBlock_blockLen_eq_fault_iff

theorem execLdRegs_eq_fault_iff {x : RegIdx} : exec (.ldRegs x) s = .fault f ↔
    4095 < s.I.toNat + x.val ∧ f = .memoryOutOfBounds (BitVec.ofNat 16 (max s.I.toNat 4096)) :=
  guardBlock_blockLen_eq_fault_iff

theorem execSkp_eq_fault_iff {x : RegIdx} : exec (.skp x) s = .fault f ↔
    15 < s.V[x].toNat ∧ f = .keyIndexOutOfRange (BitVec.ofNat 16 s.V[x].toNat) :=
  guardKey_eq_fault_iff (next := s.skipIf)

theorem execSknp_eq_fault_iff {x : RegIdx} : exec (.sknp x) s = .fault f ↔
    15 < s.V[x].toNat ∧ f = .keyIndexOutOfRange (BitVec.ofNat 16 s.V[x].toNat) :=
  guardKey_eq_fault_iff (next := fun down => s.skipIf (!down))

end

/-- Settles O14: of the alternatives only the one that names the instruction remains, and that is its own lemma above. -/
theorem fatalConditionsAreExact : Obligations.FatalConditionsAreExact := by
  unfold Obligations.FatalConditionsAreExact
  intro i s f
  cases i with
  | cls | jp | seImm | sneImm | seReg | ldImm | addImm | ldReg | orReg | andReg | xorReg | addReg | subReg | shr | subnReg
  | shl | sneReg | ldI | jpV0 | rnd | ldVxDT | ldDTVx | ldSTVx | addI | ldF => exact iff_of_false nofun (by simp)
  | ldVxK => exact iff_of_false execLdVxK_ne_fault (by simp)
  | call => simpa using execCall_eq_fault_iff
  | ret => simpa using execRet_eq_fault_iff
  | drw => simpa [and_assoc] using execDrw_eq_fault_iff
  | ldB => simpa using execLdB_eq_fault_iff
  | stRegs => simpa using execStRegs_eq_fault_iff
  | ldRegs => simpa using execLdRegs_eq_fault_iff
  | skp => simpa using execSkp_eq_fault_iff
  | sknp => simpa using execSknp_eq_fault_iff

/-! ### A fault repeats (R85, R201) -/

section
variable {s t : State} {f : Fault}

/-- Beside the instruction itself a fatal condition reads `sp`, `I` and the general registers only. -/
theorem exec_fault_of_agree {i : Instr} (hsp : t.sp = s.sp) (hI : t.I = s.I) (hV : t.V = s.V)
    (h : exec i s = .fault f) : exec i t = .fault f := by
  have hcond := (fatalConditionsAreExact i s f).mp h
  rw [← hsp, ← hI, ← hV] at hcond
  exact (fatalConditionsAreExact i t f).mpr hcond

/-- A cycle faults in its fetch and decode phases or in its execute phase (R80, R199). -/
theorem step_eq_fault_iff : step s = .fault f ↔
    s.fetchInstr = .error f ∨ ∃ i, s.fetchInstr = .ok i ∧ exec i s = .fault f := by
  obtain ⟨g, hg, hs⟩ | ⟨i, hi, hs⟩ := step_cases s
  · simp [hg, hs]
  · cases he : exec i s <;> simp [hi, hs, he, endCycle]

end

/-- Settles O11: the same word is fetched and decoded, and what the host writes is none of what a condition reads. -/
theorem faultRepeatsWhateverTheHostWrites : Obligations.FaultRepeatsWhateverTheHostWrites := by
  unfold Obligations.FaultRepeatsWhateverTheHostWrites
  intro s f k a b r h
  obtain hfetch | ⟨i, hi, hexec⟩ := step_eq_fault_iff.mp h
  · exact step_eq_fault_iff.mpr (.inl hfetch)
  · exact step_eq_fault_iff.mpr (.inr ⟨i, hi, exec_fault_of_agree (s := s) rfl rfl rfl hexec⟩)

/-! ### Unknown words (R191) -/

/-- A cycle whose step faults returns the fault to the host and keeps the state (R85, R177). -/
theorem runCycle_of_fault {r : Byte} {s : State} {f : Fault} (h : step { s with rnd := r } = .fault f) :
    runCycle r s = (s, .fatal f) := by
  simp only [runCycle, h]

/-- Settles O8: the word is fetched whatever the random byte is, and its cycle keeps the state, `pc` included. -/
theorem unknownInstructionIsFatal : Obligations.UnknownInstructionIsFatal := by
  unfold Obligations.UnknownInstructionIsFatal
  intro s w hf hd
  refine ⟨step_of_unknown hf hd, fun r => ?_⟩
  have hcycle : runCycle r s = (s, .fatal (.unknownInstruction w)) :=
    runCycle_of_fault (step_of_unknown (s := { s with rnd := r }) hf hd)
  rw [hcycle]
  exact ⟨rfl, rfl⟩

end Sys2Proof.Machine
end
